-- ==== Sys2Proof/Word.lean ====
section
/-!
DEFINITION. The machine's one data unit (spec/00_scope.md rules R5 and R6): every memory word, register, stack
entry, opcode word and operand word is an unsigned 16-bit word. A character code on a port is 8 bits wide.
-/
namespace Sys2Proof

/-- A word: an unsigned integer 0 to 65535 held in 16 bits (R6, R11). -/
abbrev Word := BitVec 16

/-- A character code of the input port or a character of the output port: 8 bits (R5; 92 D5, D6). -/
abbrev Byte := BitVec 8

end Sys2Proof
end

