-- ==== Sys2Proof/Config.lean ====
section
/-!
DEFINITION. The implementation parameters of spec/00_scope.md rule R5. The spec gives each of them a value, so none
is left free: this machine has no behaviour whose value the spec does not fix (spec/93_implementation_defined.md).
The two parameters that offer an alternative (`REG_WRITE_WIDE`, `OUT_WIDE`) are taken at the spec's default (`raw`,
`low8`): notes/assumptions/2.md and 3.md.
-/
namespace Sys2Proof

/-- `MEM_WORDS`: memory has 32,768 words, addresses 0 to 32767 (R5, R50). -/
def Config.memWords : Nat := 32768

/-- `MODULUS` of `add`, `mult` and `not` (R5). -/
def Config.modulus : Nat := 32768

/-- `LIT_MAX`: the largest literal operand word (R5, R83). -/
def Config.litMax : Nat := 32767

/-- `REG_BASE`: the operand word that names register 0 (R5, R83). -/
def Config.regBase : Nat := 32768

/-- What a memory word no one has written and no image has set reads as: 0 (92 D9, the spec's own choice).
DESIGN CHOICE, notes/assumptions/4.md. -/
def Config.unlistedWord : Word := 0

end Sys2Proof
end

