-- ==== Sys2Proof/Syntax.lean ====
section
/-!
DEFINITION. The instruction set as syntax: the eight register names, the operand words sorted by their value alone
(spec/30_encoding.md rule R83), the 22 instructions (R85) and the role of each operand (R84, R85).
-/
namespace Sys2Proof

/-- The eight registers, `r0` to `r7` (spec/10_state.md rule R21). -/
inductive Reg where
  | r0 | r1 | r2 | r3 | r4 | r5 | r6 | r7
  deriving DecidableEq, Repr

/-- What stands in an operand position. An operand word is one of three things by its value alone (R83). The fourth
case is an operand whose word would lie above the top of memory, so that there is no word to fetch (spec/20_memory.md
rule R59; DESIGN CHOICE, notes/assumptions/16.md). Which of them an instruction accepts, and what it raises for the others, is said by the operand's role. -/
inductive Operand where
  /-- 0 to 32767: a literal, a 15-bit unsigned number used as it is. -/
  | lit (n : BitVec 15)
  /-- 32768 to 32775: a register reference. -/
  | reg (r : Reg)
  /-- 32776 to 65535: invalid. -/
  | bad (w : Word)
  /-- No word: its address is above 32767. -/
  | beyond
  deriving DecidableEq, Repr

/-- The role of an operand (R84): a destination names the register written, a source gives a value. -/
inductive Role where
  | dst
  | src
  deriving DecidableEq, Repr

/-- The 22 instructions of R85, one constructor per row of the opcode table, in the table's order, with their operands
`A`, `B`, `C` in source order. The constructor of the row `in` is named `input` (`in` is a word of Lean). -/
inductive Instr where
  | halt
  | set (A B : Operand)
  | push (A : Operand)
  | pop (A : Operand)
  | eq (A B C : Operand)
  | gt (A B C : Operand)
  | jmp (A : Operand)
  | jt (A B : Operand)
  | jf (A B : Operand)
  | add (A B C : Operand)
  | mult (A B C : Operand)
  | mod (A B C : Operand)
  | and (A B C : Operand)
  | or (A B C : Operand)
  | not (A B : Operand)
  | rmem (A B : Operand)
  | wmem (A B : Operand)
  | call (A : Operand)
  | ret
  | out (A : Operand)
  | input (A : Operand)
  | noop
  deriving DecidableEq, Repr

/-- The operands of an instruction in source order, each with its role: the column "Operands" of R85. -/
def Instr.roles : Instr → List (Role × Operand)
  | .halt => []
  | .set A B => [(.dst, A), (.src, B)]
  | .push A => [(.src, A)]
  | .pop A => [(.dst, A)]
  | .eq A B C => [(.dst, A), (.src, B), (.src, C)]
  | .gt A B C => [(.dst, A), (.src, B), (.src, C)]
  | .jmp A => [(.src, A)]
  | .jt A B => [(.src, A), (.src, B)]
  | .jf A B => [(.src, A), (.src, B)]
  | .add A B C => [(.dst, A), (.src, B), (.src, C)]
  | .mult A B C => [(.dst, A), (.src, B), (.src, C)]
  | .mod A B C => [(.dst, A), (.src, B), (.src, C)]
  | .and A B C => [(.dst, A), (.src, B), (.src, C)]
  | .or A B C => [(.dst, A), (.src, B), (.src, C)]
  | .not A B => [(.dst, A), (.src, B)]
  | .rmem A B => [(.dst, A), (.src, B)]
  | .wmem A B => [(.src, A), (.src, B)]
  | .call A => [(.src, A)]
  | .ret => []
  | .out A => [(.src, A)]
  | .input A => [(.dst, A)]
  | .noop => []

/-- The operands of an instruction in source order (R80). -/
def Instr.operands (i : Instr) : List Operand :=
  i.roles.map Prod.snd

/-- The number of words of an instruction: the opcode word and its operand words (R80). -/
def Instr.length (i : Instr) : Nat :=
  1 + i.operands.length

end Sys2Proof
end

