-- ==== Sys2Proof/WellFormed.lean ====
section
/-!
DEFINITION. The instructions a program may write: every operand is of a kind its role accepts (spec/30_encoding.md
rules R84 and R87). An instruction that is not well formed is still an instruction of the machine: its meaning raises
the error the spec names.
-/
namespace Sys2Proof

/-- Does a role accept this operand? A destination must be a register reference, a source a literal or a register
reference (R84). -/
def Operand.okAs : Role → Operand → Bool
  | .dst, .reg _ => true
  | .src, .lit _ => true
  | .src, .reg _ => true
  | .dst, .lit _ => false
  | _, .bad _ => false
  | _, .beyond => false

/-- Every operand is of a kind its role accepts. -/
def Instr.wellFormed (i : Instr) : Bool :=
  i.roles.all fun p => p.2.okAs p.1

end Sys2Proof
end

