-- ==== Sys2Proof/Decode.lean ====
section
/-!
DEFINITION. Decoding and encoding (spec/30_encoding.md rules R80 to R87 and R92). The machine has no bytes: the decoder
reads words. It is total (R89): any list of words gives an instruction with its operands, or a refusal by name.
The list stands for the words from the program counter up to the top of memory.
-/
namespace Sys2Proof

/-- The index of a register, 0 to 7 (spec/10_state.md rule R21). -/
def Reg.index : Reg → Nat
  | .r0 => 0
  | .r1 => 1
  | .r2 => 2
  | .r3 => 3
  | .r4 => 4
  | .r5 => 5
  | .r6 => 6
  | .r7 => 7

/-- The register with a given index, if there is one. -/
def Reg.ofIndex? : Nat → Option Reg
  | 0 => some .r0
  | 1 => some .r1
  | 2 => some .r2
  | 3 => some .r3
  | 4 => some .r4
  | 5 => some .r5
  | 6 => some .r6
  | 7 => some .r7
  | _ => none

/-- An operand word, sorted by its value alone (R83). -/
def Operand.ofWord (w : Word) : Operand :=
  if w.toNat ≤ Config.litMax then .lit (w.setWidth 15)
  else
    match Reg.ofIndex? (w.toNat - Config.regBase) with
    | some r => .reg r
    | none => .bad w

/-- Take the next operand word. With no word left the operand is `beyond`: its address is above the top of memory. -/
def takeOperand : List Word → Operand × List Word
  | [] => (.beyond, [])
  | w :: ws => (Operand.ofWord w, ws)

/-- Why the decoder gives no instruction. -/
inductive DecodeError where
  /-- There is no opcode word: the program counter is above the top of memory. -/
  | noWord
  /-- The opcode word is 22 to 65535 (R86). -/
  | badOpcode (w : Word)
  deriving DecidableEq, Repr

/-- Decode an instruction of shape `S` or `D`: one operand word. -/
def decode1 (f : Operand → Instr) (ws : List Word) : Except DecodeError (Instr × List Word) :=
  let (A, ws) := takeOperand ws
  .ok (f A, ws)

/-- Decode an instruction of shape `SS` or `DS`: two operand words. -/
def decode2 (f : Operand → Operand → Instr) (ws : List Word) : Except DecodeError (Instr × List Word) :=
  let (A, ws) := takeOperand ws
  let (B, ws) := takeOperand ws
  .ok (f A B, ws)

/-- Decode an instruction of shape `DSS`: three operand words. -/
def decode3 (f : Operand → Operand → Operand → Instr) (ws : List Word) :
    Except DecodeError (Instr × List Word) :=
  let (A, ws) := takeOperand ws
  let (B, ws) := takeOperand ws
  let (C, ws) := takeOperand ws
  .ok (f A B C, ws)

/-- Decode one instruction and give the words after it. The whole 16-bit opcode word is compared as a number against
0 to 21 (R82); every other value is refused and no operand word is looked at (R86). -/
def decode : List Word → Except DecodeError (Instr × List Word)
  | [] => .error .noWord
  | op :: ws =>
    match op.toNat with
    | 0 => .ok (.halt, ws)
    | 1 => decode2 .set ws
    | 2 => decode1 .push ws
    | 3 => decode1 .pop ws
    | 4 => decode3 .eq ws
    | 5 => decode3 .gt ws
    | 6 => decode1 .jmp ws
    | 7 => decode2 .jt ws
    | 8 => decode2 .jf ws
    | 9 => decode3 .add ws
    | 10 => decode3 .mult ws
    | 11 => decode3 .mod ws
    | 12 => decode3 .and ws
    | 13 => decode3 .or ws
    | 14 => decode2 .not ws
    | 15 => decode2 .rmem ws
    | 16 => decode2 .wmem ws
    | 17 => decode1 .call ws
    | 18 => .ok (.ret, ws)
    | 19 => decode1 .out ws
    | 20 => decode1 .input ws
    | 21 => .ok (.noop, ws)
    | _ => .error (.badOpcode op)

/-- The opcode word of an instruction: the column "Code" of R85. -/
def Instr.opcode : Instr → Word
  | .halt => 0
  | .set _ _ => 1
  | .push _ => 2
  | .pop _ => 3
  | .eq _ _ _ => 4
  | .gt _ _ _ => 5
  | .jmp _ => 6
  | .jt _ _ => 7
  | .jf _ _ => 8
  | .add _ _ _ => 9
  | .mult _ _ _ => 10
  | .mod _ _ _ => 11
  | .and _ _ _ => 12
  | .or _ _ _ => 13
  | .not _ _ => 14
  | .rmem _ _ => 15
  | .wmem _ _ => 16
  | .call _ => 17
  | .ret => 18
  | .out _ => 19
  | .input _ => 20
  | .noop => 21

/-- The words of an operand: a literal is its own value, register `K` is 32768 + `K` (R92). An operand that lies beyond
the top of memory has none. -/
def Operand.encode : Operand → List Word
  | .lit n => [n.setWidth 16]
  | .reg r => [BitVec.ofNat 16 (Config.regBase + r.index)]
  | .bad w => [w]
  | .beyond => []

/-- The words of an instruction: its opcode word, then its operand words in source order (R80, R92). -/
def Instr.encode (i : Instr) : List Word :=
  i.opcode :: i.operands.flatMap Operand.encode

/-- The first `n` words of a bit string, the first word in the low 16 bits. -/
def wordsOfBits : Nat → Nat → List Word
  | 0, _ => []
  | n + 1, w => BitVec.ofNat 16 w :: wordsOfBits n (w / 65536)

/-- The words the host's numbering of a table row stands for: bit 0 is the least significant bit of the first word, the
next word's bits count on from bit 16, and every bit above `nbits` is 0, up to the longest instruction (4 words). -/
def tableWords (nbits w : Nat) : List Word :=
  wordsOfBits 4 (w % 2 ^ nbits)

/-- The instruction the decoder reads from an instruction whose bits are `w` (the host's question about a table row).
The machine stores words, not bytes (spec/20_memory.md rule R50), so a word is laid out as itself. -/
def decodeTableWord (nbits w : Nat) : Option Instr :=
  match decode (tableWords nbits w) with
  | .ok (i, _) => some i
  | .error _ => none

end Sys2Proof
end

