-- ==== Sys2Proof/Machine/State.lean ====
section
/-!
DEFINITION. The state of the machine as plain data (spec/10_state.md rules R20 to R37): memory, the eight registers, the
program counter, the stack and the run state; and beside them the two streams of the environment that `out` and `in`
reach, the emitted codes and the input source (R36). Its reset value is R37.
-/
namespace Sys2Proof.Machine

/-- The seven error kinds (spec/60_exceptions.md rule R180). -/
inductive ErrorKind where
  /-- Raised by decoding: the opcode word is 22 to 65535 (R181). -/
  | invalidOpcode
  /-- Raised by the operand phase: a source word above 32775, or a destination word that names no register (R182). -/
  | invalidOperand
  /-- The register file's own check; no rule raises it (R183). -/
  | registerIndexOutOfRange
  /-- Raised by every memory access above 32767: opcode fetch, operand fetch, `rmem`, `wmem` (R184). -/
  | invalidAddress
  /-- Raised by `pop` and `ret` on the empty stack (R185). -/
  | stackUnderflow
  /-- Raised by `mod` with the divisor 0 (R186). -/
  | divisionByZero
  /-- Raised by `in` when the input source has signalled end-of-input (R187). -/
  | inputExhausted
  deriving DecidableEq, Repr

/-- The run state (R29). An error carries its kind and `fpc`, the program counter at the point of failure. -/
inductive RunState where
  | running
  | haltedNormal
  | haltedError (kind : ErrorKind) (fpc : Word)
  deriving DecidableEq, Repr

/-- The register file: eight 16-bit words, none hard-wired, no aliases, no banks (R21). -/
structure RegFile where
  r0 : Word
  r1 : Word
  r2 : Word
  r3 : Word
  r4 : Word
  r5 : Word
  r6 : Word
  r7 : Word
  deriving DecidableEq, Repr

/-- Memory: the words that differ from what an unlisted address reads as, by address. The smallest addressable unit is
the 16-bit word and the machine has no bytes (spec/20_memory.md rule R50): notes/assumptions/1.md. -/
abbrev Memory := List (Nat × Word)

/-- The whole state. -/
structure State where
  /-- `mem`: 32,768 words, addresses 0 to 32767 (R32). -/
  mem : Memory
  /-- `x`: the registers (R21). -/
  regs : RegFile
  /-- `pc`: the address of the next instruction, 16 bits (R24). -/
  pc : Word
  /-- `stack`: a sequence of words whose last element is the top (R27, R8). -/
  stack : List Word
  /-- `run`: the run state (R29). -/
  run : RunState
  /-- `out`: the codes emitted so far, oldest first (R36, R162). -/
  out : List Word
  /-- `inp`: the codes the input source has made available and no `in` has consumed, oldest first (R36, R164; that
  the streams stand in the state: DESIGN CHOICE, notes/assumptions/7.md; 8-bit codes: 14.md). -/
  inp : List Byte
  /-- Has the input source signalled end-of-input (after the codes of `inp`)? (R164) -/
  inpEnd : Bool
  deriving DecidableEq, Repr

/-- The state after reset (R37): registers 0, `pc` 0, empty stack, `Running`, nothing emitted. The image is the run's
input and none is placed here, so every word reads as 0; the input source is empty and has signalled end-of-input.
DESIGN CHOICE for the image and the input: notes/assumptions/4.md and 5.md. -/
def State.reset : State where
  mem := []
  regs := { r0 := 0, r1 := 0, r2 := 0, r3 := 0, r4 := 0, r5 := 0, r6 := 0, r7 := 0 }
  pc := 0
  stack := []
  run := .running
  out := []
  inp := []
  inpEnd := true

/-- Why there is no step from a state. An error of the machine itself is NOT here: taking one is a next state whose run
state is `haltedError` (R108, R190). -/
inductive Fault where
  /-- Raised by `step` alone: the run state is terminal, and a terminal state has no step (R10, R110). Safe: the spec
  says that no step exists there. -/
  | terminal
  /-- Raised by `in` alone: no code is available and end-of-input has not been signalled, so no step is enabled (R35, R165).
  The state stays as it is, `Running`; it is neither an error of the machine nor the end of the run, and steps again once the
  environment has answered. Safe: the spec says that the step does not take place. -/
  | holding
  deriving DecidableEq, Repr

/-- Why an instruction is refused. -/
inductive Refusal where
  /-- An instruction that has no meaning yet, raised by its arm of `exec`. Safe: nothing is claimed of it. No arm raises
  it: every instruction has its meaning. -/
  | notModelled (mnemonic : String)
  deriving DecidableEq, Repr

end Sys2Proof.Machine
end

