-- ==== Sys2Proof/Machine/Ops.lean ====
section
/-!
DEFINITION. The named operations over registers, memory, the stack and the two ports, and taking an error as one
shared operation (spec/00_scope.md rule R9 lists them). Every access to the state by a meaning goes through these.
-/
namespace Sys2Proof.Machine

open Host (Outcome)

/-! ### Registers -/

/-- Read a register (R21); no side effect. -/
def RegFile.get (f : RegFile) : Reg → Word
  | .r0 => f.r0
  | .r1 => f.r1
  | .r2 => f.r2
  | .r3 => f.r3
  | .r4 => f.r4
  | .r5 => f.r5
  | .r6 => f.r6
  | .r7 => f.r7

/-- Write a register: all 16 bits are stored, nothing is reduced, no other register changes (R109). That a word
above 32767 is stored raw is the spec's choice (92 D1): DESIGN CHOICE, notes/assumptions/2.md. -/
def RegFile.set (f : RegFile) (d : Reg) (v : Word) : RegFile :=
  match d with
  | .r0 => { f with r0 := v }
  | .r1 => { f with r1 := v }
  | .r2 => { f with r2 := v }
  | .r3 => { f with r3 := v }
  | .r4 => { f with r4 := v }
  | .r5 => { f with r5 := v }
  | .r6 => { f with r6 := v }
  | .r7 => { f with r7 := v }

/-- The register file's own `get(index)` with its defensive check (R104). No instruction reaches it with an index
outside 0 to 7: an operand names a register by a `Reg` (92 D17): DEDUCED, notes/assumptions/18.md. -/
def RegFile.getAt (f : RegFile) (index : Nat) : Except ErrorKind Word :=
  match Reg.ofIndex? index with
  | some r => .ok (f.get r)
  | none => .error .registerIndexOutOfRange

/-- The register file's own `set(index, value)` with its defensive check (R104). -/
def RegFile.setAt (f : RegFile) (index : Nat) (v : Word) : Except ErrorKind RegFile :=
  match Reg.ofIndex? index with
  | some r => .ok (f.set r v)
  | none => .error .registerIndexOutOfRange

/-- `x[d] <- v` (R109). -/
def State.setReg (s : State) (d : Reg) (v : Word) : State :=
  { s with regs := s.regs.set d v }

/-! ### Memory -/

/-- The word at an address, listed or not. -/
def Memory.read : Memory → Nat → Word
  | [], _ => Config.unlistedWord
  | (b, w) :: m, a => if a = b then w else Memory.read m a

/-- Put a word at the head of a memory list, unless it is what an unlisted address reads as. -/
def Memory.cons (a : Nat) (v : Word) (m : Memory) : Memory :=
  if v = Config.unlistedWord then m else (a, v) :: m

/-- The memory with one word changed, in the canonical form. -/
def Memory.write : Memory → Nat → Word → Memory
  | [], a, v => Memory.cons a v []
  | (b, w) :: m, a, v =>
    if a < b then Memory.cons a v ((b, w) :: m)
    else if a = b then Memory.cons a v m
    else (b, w) :: Memory.write m a v

/-- The canonical form: addresses strictly rising, each one an address of the machine (R32, R57), and no entry equal to
what an unlisted address reads as. -/
abbrev Memory.wf (m : Memory) : Prop :=
  m.Pairwise (fun x y => x.1 < y.1) ∧ ∀ c ∈ m, c.1 < Config.memWords ∧ c.2 ≠ Config.unlistedWord

/-- `MemRead(addr, 1)` (R51), for any unsigned number `addr`. -/
def memRead (m : Memory) (addr : Nat) : Except ErrorKind Word :=
  if addr < Config.memWords then .ok (Memory.read m addr) else .error .invalidAddress

/-- `MemWrite(addr, 1, v)` (R52), for any unsigned number `addr`. -/
def memWrite (m : Memory) (addr : Nat) (v : Word) : Except ErrorKind Memory :=
  if addr < Config.memWords then .ok (Memory.write m addr v) else .error .invalidAddress

/-- Words laid from an address upwards; a word that would lie above 32767 is not placed (R57). -/
def placeWords : Memory → Nat → List Word → Memory
  | m, _, [] => m
  | m, a, w :: ws => placeWords (if a < Config.memWords then Memory.write m a w else m) (a + 1) ws

/-! ### Stack -/

/-- `Push(v)` (R27): appends unconditionally; no capacity (92 D8): DESIGN CHOICE, notes/assumptions/13.md. -/
def State.push (s : State) (v : Word) : State :=
  { s with stack := s.stack ++ [v] }

/-- `Pop()` (R27): removes and returns the last element, or fails with `StackUnderflow`. -/
def State.pop (s : State) : Except ErrorKind (Word × State) :=
  match s.stack.getLast? with
  | some v => .ok (v, { s with stack := s.stack.dropLast })
  | none => .error .stackUnderflow

/-! ### Ports -/

/-- `Emit(v)` (R162): the whole word is appended to the history of the Output Port; it cannot fail. -/
def State.emit (s : State) (v : Word) : State :=
  { s with out := s.out ++ [v] }

/-- `Input()` (R164): the next code and the state without it; `none` while nothing is available and end-of-input has not
been signalled (the hold, R165); `InputExhausted` at end of input. -/
def State.takeInput (s : State) : Except ErrorKind (Option (Byte × State)) :=
  match s.inp, s.inpEnd with
  | c :: rest, _ => .ok (some (c, { s with inp := rest }))
  | [], false => .ok none
  | [], true => .error .inputExhausted

/-! ### The program counter, the end of a run, errors -/

/-- `pc <- pc + n` (R25). The sum never exceeds 32768 for an instruction that was fetched (R26):
DEDUCED, notes/assumptions/17.md. -/
def State.advance (s : State) (n : Nat) : State :=
  { s with pc := s.pc + BitVec.ofNat 16 n }

/-- `pc <- t`: no check is made here (R25, 92 D2): DESIGN CHOICE, notes/assumptions/10.md. -/
def State.jump (s : State) (t : Word) : State :=
  { s with pc := t }

/-- `run <- Halted(Normal)` (R170). -/
def State.halt (s : State) : State :=
  { s with run := .haltedNormal }

/-- Taking an error, `raise K` (R108, R188, R190): the run state records the kind and the program counter of the failing
instruction; nothing else changes (92 D4): DEDUCED, notes/assumptions/9.md. There is no handler and no return from an error (R191). -/
def State.raise (s : State) (k : ErrorKind) : State :=
  { s with run := .haltedError k s.pc }

/-- Go on with the value of a check that passed, or take the error of a check that failed. Every check of an instruction
goes through this, so the first failing check decides (R105; operand by operand by 92 D3: DESIGN CHOICE,
notes/assumptions/11.md). -/
def orRaise {α : Type} (s : State) (x : Except ErrorKind α) (k : α → Outcome State Fault Refusal) :
    Outcome State Fault Refusal :=
  match x with
  | .ok v => k v
  | .error e => .next (s.raise e)

end Sys2Proof.Machine
end

