-- ==== Sys2Proof/Machine/Operands.lean ====
section
/-!
DEFINITION. The operand resolver (spec/40_step_and_operands.md rules R101 to R103): the value of a source operand and
the register of a destination operand, for every kind of operand. An operand whose word lies above the top of memory
fails its fetch (R101 phase 3, R105 item 3).
-/
namespace Sys2Proof.Machine

/-- `Resolve` (R102): a literal is zero-extended, a register gives all 16 bits of its content. -/
def resolve (s : State) : Operand → Except ErrorKind Word
  | .lit n => .ok (n.setWidth 16)
  | .reg r => .ok (s.regs.get r)
  | .bad _ => .error .invalidOperand
  | .beyond => .error .invalidAddress

/-- `Dest` (R103): only a register reference is a destination; no register is read. -/
def dest : Operand → Except ErrorKind Reg
  | .reg r => .ok r
  | .lit _ => .error .invalidOperand
  | .bad _ => .error .invalidOperand
  | .beyond => .error .invalidAddress

end Sys2Proof.Machine
end

