-- ==== Sys2Proof/Machine/Arith.lean ====
section
/-!
DEFINITION. `add`, `mult`, `mod`, `and`, `or`, `not` (spec/44_arith_logic.md). The values are computed exactly on
natural numbers and narrowed at the end, as the rules write them (R7); nothing is signed (R146).
-/
namespace Sys2Proof.Machine

open Host (Outcome)

/-- `(b + c) mod 32768` (R140). -/
def addValue (b c : Word) : Word :=
  BitVec.ofNat 16 ((b.toNat + c.toNat) % Config.modulus)

/-- `(b * c) mod 32768`, of the exact product (R141). -/
def multValue (b c : Word) : Word :=
  BitVec.ofNat 16 ((b.toNat * c.toNat) % Config.modulus)

/-- `b mod c`, or `DivisionByZero` (R142, R148); wide words by 92 D16: DESIGN CHOICE, notes/assumptions/12.md. -/
def modValue (b c : Word) : Except ErrorKind Word :=
  if c = 0 then .error .divisionByZero else .ok (BitVec.ofNat 16 (b.toNat % c.toNat))

/-- `b AND c`, all 16 bits (R143; 92 D16: DESIGN CHOICE, notes/assumptions/12.md). -/
def andValue (b c : Word) : Word :=
  b &&& c

/-- `b OR c`, all 16 bits (R144; 92 D16: DESIGN CHOICE, notes/assumptions/12.md). -/
def orValue (b c : Word) : Word :=
  b ||| c

/-- `NOT16(b) mod 32768`, with `NOT16(b) = 65535 - b` (R145, R7). -/
def notValue (b : Word) : Word :=
  BitVec.ofNat 16 ((65535 - b.toNat) % Config.modulus)

/-- `add` (R140). -/
def execAdd (A B C : Operand) (s : State) : Outcome State Fault Refusal :=
  orRaise s (dest A) fun d =>
  orRaise s (resolve s B) fun b =>
  orRaise s (resolve s C) fun c =>
  .next ((s.setReg d (addValue b c)).advance 4)

/-- `mult` (R141). -/
def execMult (A B C : Operand) (s : State) : Outcome State Fault Refusal :=
  orRaise s (dest A) fun d =>
  orRaise s (resolve s B) fun b =>
  orRaise s (resolve s C) fun c =>
  .next ((s.setReg d (multValue b c)).advance 4)

/-- `mod` (R142): the operands are checked before the divisor. -/
def execMod (A B C : Operand) (s : State) : Outcome State Fault Refusal :=
  orRaise s (dest A) fun d =>
  orRaise s (resolve s B) fun b =>
  orRaise s (resolve s C) fun c =>
  orRaise s (modValue b c) fun v =>
  .next ((s.setReg d v).advance 4)

/-- `and` (R143). -/
def execAnd (A B C : Operand) (s : State) : Outcome State Fault Refusal :=
  orRaise s (dest A) fun d =>
  orRaise s (resolve s B) fun b =>
  orRaise s (resolve s C) fun c =>
  .next ((s.setReg d (andValue b c)).advance 4)

/-- `or` (R144). -/
def execOr (A B C : Operand) (s : State) : Outcome State Fault Refusal :=
  orRaise s (dest A) fun d =>
  orRaise s (resolve s B) fun b =>
  orRaise s (resolve s C) fun c =>
  .next ((s.setReg d (orValue b c)).advance 4)

/-- `not` (R145). -/
def execNot (A B : Operand) (s : State) : Outcome State Fault Refusal :=
  orRaise s (dest A) fun d =>
  orRaise s (resolve s B) fun b =>
  .next ((s.setReg d (notValue b)).advance 3)

end Sys2Proof.Machine
end

