-- ==== Sys2Proof/Machine/CallRet.lean ====
section
/-!
DEFINITION. `call`, `ret` (spec/46_call_ret.md).
-/
namespace Sys2Proof.Machine

open Host (Outcome)

/-- `call` (R155): push the address of the word after the operand, then jump; the target is not checked here. -/
def execCall (A : Operand) (s : State) : Outcome State Fault Refusal :=
  orRaise s (resolve s A) fun a =>
  .next ((s.push (s.pc + 2)).jump a)

/-- `ret` (R156): `pc <- Pop()`, whatever pushed the word; on the empty stack an error, not a halt. -/
def execRet (s : State) : Outcome State Fault Refusal :=
  orRaise s s.pop fun (v, s') =>
  .next (s'.jump v)

end Sys2Proof.Machine
end

