-- ==== Sys2Proof/Machine/Flags.lean ====
section
/-!
DEFINITION. The machine has no flags and no condition codes (spec/10_state.md rule R31). What other machines keep in
flags is here a value: `eq` and `gt` write 1 or 0 into a register (spec/42_compare.md), and `jt` and `jf` test a
resolved operand against zero (spec/43_jumps.md).
-/
namespace Sys2Proof.Machine

/-- The result of `eq`: 1 if the two 16-bit words are equal, else 0 (R125; wide words by 92 D16: DESIGN CHOICE,
notes/assumptions/12.md). -/
def eqFlag (b c : Word) : Word :=
  if b = c then 1 else 0

/-- The result of `gt`: 1 if `b` is greater than `c` as unsigned 16-bit words, else 0 (R126; wide words by 92 D16:
DESIGN CHOICE, notes/assumptions/12.md). -/
def gtFlag (b c : Word) : Word :=
  if b.toNat > c.toNat then 1 else 0

/-- The condition of `jt` and `jf`: non-zero over all 16 bits (R131, R132). -/
def isNonzero (a : Word) : Bool :=
  decide (a ≠ 0)

end Sys2Proof.Machine
end

