-- ==== Sys2Proof/Machine/Compare.lean ====
section
/-!
DEFINITION. `eq`, `gt` (spec/42_compare.md).
-/
namespace Sys2Proof.Machine

open Host (Outcome)

/-- `eq` (R125). -/
def execEq (A B C : Operand) (s : State) : Outcome State Fault Refusal :=
  orRaise s (dest A) fun d =>
  orRaise s (resolve s B) fun b =>
  orRaise s (resolve s C) fun c =>
  .next ((s.setReg d (eqFlag b c)).advance 4)

/-- `gt` (R126). -/
def execGt (A B C : Operand) (s : State) : Outcome State Fault Refusal :=
  orRaise s (dest A) fun d =>
  orRaise s (resolve s B) fun b =>
  orRaise s (resolve s C) fun c =>
  .next ((s.setReg d (gtFlag b c)).advance 4)

end Sys2Proof.Machine
end

