-- ==== Sys2Proof/Machine/DataMove.lean ====
section
/-!
DEFINITION. `set`, `push`, `pop` (spec/41_data_move_stack.md).
-/
namespace Sys2Proof.Machine

open Host (Outcome)

/-- `set` (R120): `x[d] <- b`. -/
def execSet (A B : Operand) (s : State) : Outcome State Fault Refusal :=
  orRaise s (dest A) fun d =>
  orRaise s (resolve s B) fun b =>
  .next ((s.setReg d b).advance 3)

/-- `push` (R121): `Push(a)`. -/
def execPush (A : Operand) (s : State) : Outcome State Fault Refusal :=
  orRaise s (resolve s A) fun a =>
  .next ((s.push a).advance 2)

/-- `pop` (R122): `x[d] <- Pop()`; the destination is checked before the stack. -/
def execPop (A : Operand) (s : State) : Outcome State Fault Refusal :=
  orRaise s (dest A) fun d =>
  orRaise s s.pop fun (v, s') =>
  .next ((s'.setReg d v).advance 2)

end Sys2Proof.Machine
end

