-- ==== Sys2Proof/Machine/HaltNoop.lean ====
section
/-!
DEFINITION. `halt`, `noop` (spec/48_halt_noop.md).
-/
namespace Sys2Proof.Machine

open Host (Outcome)

/-- `halt` (R170): the run ends normally; `pc` keeps the address of the `halt`. -/
def execHalt (s : State) : Outcome State Fault Refusal :=
  .next s.halt

/-- `noop` (R171): only the program counter advances. -/
def execNoop (s : State) : Outcome State Fault Refusal :=
  .next (s.advance 1)

end Sys2Proof.Machine
end

