-- ==== Sys2Proof/Machine/InOut.lean ====
section
/-!
DEFINITION. `out`, `in` (spec/47_io.md).
-/
namespace Sys2Proof.Machine

open Host (Outcome)

/-- `out` (R160): `Emit(a)`. -/
def execOut (A : Operand) (s : State) : Outcome State Fault Refusal :=
  orRaise s (resolve s A) fun a =>
  .next ((s.emit a).advance 2)

/-- `in` (R161): the next code, zero-extended, goes to the register. The destination is checked before the input source
is asked. While the source has neither a code nor end-of-input the machine holds (R164, R165): the step does not take place,
which is the stop `holding` (DEDUCED, notes/assumptions/6.md). -/
def execIn (A : Operand) (s : State) : Outcome State Fault Refusal :=
  orRaise s (dest A) fun d =>
  orRaise s s.takeInput fun answer =>
  match answer with
  | some (c, s') => .next ((s'.setReg d (c.setWidth 16)).advance 2)
  | none => .fault .holding

end Sys2Proof.Machine
end

