-- ==== Sys2Proof/Machine/Jumps.lean ====
section
/-!
DEFINITION. `jmp`, `jt`, `jf` (spec/43_jumps.md). A target is an absolute address, stored unchecked (R133).
-/
namespace Sys2Proof.Machine

open Host (Outcome)

/-- `jmp` (R130): `pc <- a`. -/
def execJmp (A : Operand) (s : State) : Outcome State Fault Refusal :=
  orRaise s (resolve s A) fun a =>
  .next (s.jump a)

/-- `jt` (R131): jump to `b` when `a` is non-zero; `B` is resolved whether or not the jump is taken. -/
def execJt (A B : Operand) (s : State) : Outcome State Fault Refusal :=
  orRaise s (resolve s A) fun a =>
  orRaise s (resolve s B) fun b =>
  .next (if isNonzero a then s.jump b else s.advance 3)

/-- `jf` (R132): jump to `b` when `a` is zero; `B` is resolved whether or not the jump is taken. -/
def execJf (A B : Operand) (s : State) : Outcome State Fault Refusal :=
  orRaise s (resolve s A) fun a =>
  orRaise s (resolve s B) fun b =>
  .next (if isNonzero a then s.advance 3 else s.jump b)

end Sys2Proof.Machine
end

