-- ==== Sys2Proof/Machine/MemOps.lean ====
section
/-!
DEFINITION. `rmem`, `wmem` (spec/45_memory_ops.md): the machine's only load and store. The address is the resolved
value of one operand and nothing else (R152).
-/
namespace Sys2Proof.Machine

open Host (Outcome)

/-- `rmem` (R150): `x[d] <- MemRead(b, 1)`; the word is stored unchanged, all 16 bits. -/
def execRmem (A B : Operand) (s : State) : Outcome State Fault Refusal :=
  orRaise s (dest A) fun d =>
  orRaise s (resolve s B) fun b =>
  orRaise s (memRead s.mem b.toNat) fun v =>
  .next ((s.setReg d v).advance 3)

/-- `wmem` (R151): `MemWrite(a, 1, b)`. -/
def execWmem (A B : Operand) (s : State) : Outcome State Fault Refusal :=
  orRaise s (resolve s A) fun a =>
  orRaise s (resolve s B) fun b =>
  orRaise s (memWrite s.mem a.toNat b) fun m =>
  .next ({ s with mem := m }.advance 3)

end Sys2Proof.Machine
end

