-- ==== Sys2Proof/Machine/Dispatch.lean ====
section
/-!
DEFINITION. One arm per instruction: the meaning of each (spec/40_step_and_operands.md rule R112).
-/
namespace Sys2Proof.Machine

def exec (i : Instr) (s : State) : Host.Outcome State Fault Refusal :=
  match i with
  | .halt => Sys2Proof.Machine.execHalt s
  | .set A B => Sys2Proof.Machine.execSet A B s
  | .push A => Sys2Proof.Machine.execPush A s
  | .pop A => Sys2Proof.Machine.execPop A s
  | .eq A B C => Sys2Proof.Machine.execEq A B C s
  | .gt A B C => Sys2Proof.Machine.execGt A B C s
  | .jmp A => Sys2Proof.Machine.execJmp A s
  | .jt A B => Sys2Proof.Machine.execJt A B s
  | .jf A B => Sys2Proof.Machine.execJf A B s
  | .add A B C => Sys2Proof.Machine.execAdd A B C s
  | .mult A B C => Sys2Proof.Machine.execMult A B C s
  | .mod A B C => Sys2Proof.Machine.execMod A B C s
  | .and A B C => Sys2Proof.Machine.execAnd A B C s
  | .or A B C => Sys2Proof.Machine.execOr A B C s
  | .not A B => Sys2Proof.Machine.execNot A B s
  | .rmem A B => Sys2Proof.Machine.execRmem A B s
  | .wmem A B => Sys2Proof.Machine.execWmem A B s
  | .call A => Sys2Proof.Machine.execCall A s
  | .ret => Sys2Proof.Machine.execRet s
  | .out A => Sys2Proof.Machine.execOut A s
  | .input A => Sys2Proof.Machine.execIn A s
  | .noop => Sys2Proof.Machine.execNoop s

end Sys2Proof.Machine
end

