-- ==== Sys2Proof/Machine/Fetch.lean ====
section
/-!
DEFINITION. Fetching at the program counter (spec/40_step_and_operands.md rule R101 phases 1 to 3, spec/20_memory.md
rules R59 and R62): the words are read from the same memory `wmem` writes, afresh at every step.
-/
namespace Sys2Proof.Machine

/-- Up to `n` words from an address upwards, each read by `MemRead`; the list ends at the top of memory (R59). -/
def fetchWords (m : Memory) : Nat → Nat → List Word
  | _, 0 => []
  | a, n + 1 =>
    match memRead m a with
    | .ok w => w :: fetchWords m (a + 1) n
    | .error _ => []

/-- Fetch and decode the instruction at the program counter: `InvalidAddress` when `pc` is above 32767, `InvalidOpcode`
when the word there is none of 0 to 21. An instruction has at most 4 words (R80). -/
def fetch (s : State) : Except ErrorKind Instr :=
  match decode (fetchWords s.mem s.pc.toNat 4) with
  | .ok (i, _) => .ok i
  | .error .noWord => .error .invalidAddress
  | .error (.badOpcode _) => .error .invalidOpcode

end Sys2Proof.Machine
end

