-- ==== Sys2Proof/Machine/Step.lean ====
section
/-!
DEFINITION. One step (spec/40_step_and_operands.md rules R100, R101, R112), and the host's placing of one instruction
where the next step fetches.
-/
namespace Sys2Proof.Machine

/-- One step: taken only when the run state is `Running`; a terminal state has none (R10, R110; DEDUCED,
notes/assumptions/8.md). Fetch and decode, then
the meaning of the instruction, which checks its operands in source order and applies its effect. -/
def step (s : State) : Host.Outcome State Fault Refusal :=
  match s.run with
  | .running => orRaise s (fetch s) fun i => exec i s
  | .haltedNormal => .fault .terminal
  | .haltedError _ _ => .fault .terminal

/-- The state with an instruction's words stored at the program counter, the first word at `pc` (bits above `nbits`
are 0, up to 4 words). Nothing else changes. In a `Running` state with `pc` at most 32764 the very next step fetches and
runs exactly that instruction. -/
def State.withFetchWord (s : State) (nbits w : Nat) : State :=
  { s with mem := placeWords s.mem s.pc.toNat (tableWords nbits w) }

end Sys2Proof.Machine
end

