-- ==== Sys2Proof/Machine/Environment.lean ====
section
/-!
DEFINITION. What the host does to the machine and sees of it (spec/60_exceptions.md rule R196, spec/70_reset_and_hazards.md
rules R210 to R212, spec/10_state.md rules R30 and R36, spec/47_io.md rules R163 to R166). None of these is a step.
-/
namespace Sys2Proof.Machine

/-- Load and reset (R210, R211, R37): the state in which a run starts, from a supplied image (word `i` at address `i`,
0 beyond a short image, 92 D9) and an input source: the codes it has at once and whether end-of-input follows them.
Reset may be applied in any state and nothing survives it (R210), so the state before is no argument. -/
def State.resetWith (image : List Word) (codes : List Byte) (ended : Bool) : State :=
  { State.reset with mem := placeWords [] 0 image, inp := codes, inpEnd := ended }

/-- The input source makes one more code available (R164, R196). After end-of-input it must not (R166): no move. -/
def State.supplyCode (s : State) (c : Byte) : Option State :=
  if s.inpEnd then none else some { s with inp := s.inp ++ [c] }

/-- The input source signals end-of-input (R164), at most once (R166). -/
def State.signalEnd (s : State) : Option State :=
  if s.inpEnd then none else some { s with inpEnd := true }

/-- Is the machine at an `in` it cannot complete until the input source answers? (R35, R165) It is `Running`, and no step is
enabled. -/
def State.holding (s : State) : Bool :=
  match s.run, fetch s, s.takeInput with
  | .running, .ok (.input (.reg _)), .ok none => true
  | _, _, _ => false

/-- The characters seen on the Output Port, oldest first: the low 8 bits of each emitted word (R163, 92 D5; DESIGN CHOICE
of the spec for words above 255, notes/assumptions/3.md). -/
def State.outChars (s : State) : List Byte :=
  s.out.map fun v => v.setWidth 8

/-- The code of an error kind, 1 to 7 (R180, 92 D7): DESIGN CHOICE, notes/assumptions/15.md. -/
def ErrorKind.code : ErrorKind → Nat
  | .invalidOpcode => 1
  | .invalidOperand => 2
  | .registerIndexOutOfRange => 3
  | .invalidAddress => 4
  | .stackUnderflow => 5
  | .divisionByZero => 6
  | .inputExhausted => 7

/-- Field `state` of the status record (R30). -/
def State.statusState (s : State) : BitVec 2 :=
  match s.run with
  | .running => 0
  | .haltedNormal => 1
  | .haltedError _ _ => 2

/-- Field `kind` of the status record (R30). -/
def State.statusKind (s : State) : BitVec 3 :=
  match s.run with
  | .running => 0
  | .haltedNormal => 0
  | .haltedError k _ => BitVec.ofNat 3 k.code

/-- Field `fpc` of the status record (R30). -/
def State.statusFpc (s : State) : Word :=
  match s.run with
  | .running => 0
  | .haltedNormal => 0
  | .haltedError _ fpc => fpc

/-- The status record `{fpc[15:0], kind[2:0], state[1:0]}` that the host reads (R30, 92 D7). -/
def State.status (s : State) : BitVec 21 :=
  (s.statusFpc ++ s.statusKind ++ s.statusState : BitVec (16 + 3 + 2))

end Sys2Proof.Machine
end

