-- ==== Sys2Proof/Safety.lean ====
section
/-!
DEFINITION. The terms claims are stated in: narrow values, what an instruction writes, the first failing operand, the
invariant of the state, and a run that ends without an error (spec/70_reset_and_hazards.md rules R212 and R214).
-/
namespace Sys2Proof

open Host (Outcome)
open Sys2Proof.Machine

/-- The error an operand raises in its role, if any: a word that cannot be fetched is `InvalidAddress`, a word of the
wrong kind is `InvalidOperand` (R101 phase 3, R182). -/
def Operand.fault : Role → Operand → Option ErrorKind
  | .dst, .reg _ => none
  | .src, .lit _ => none
  | .src, .reg _ => none
  | .dst, .lit _ => some .invalidOperand
  | _, .bad _ => some .invalidOperand
  | _, .beyond => some .invalidAddress

/-- The error of the first failing operand in source order (R105 item 3). -/
def Instr.operandFault (i : Instr) : Option ErrorKind :=
  i.roles.findSome? fun p => p.2.fault p.1

/-- The register an instruction's destination operand names (R23). -/
def Instr.target? (i : Instr) : Option Reg :=
  i.roles.findSome? fun p =>
    match p with
    | (.dst, .reg r) => some r
    | _ => none

/-- Instructions whose own rule gives the next `pc` (R85, column "Redirects `pc`"). -/
def Instr.redirects : Instr → Bool
  | .jmp _ => true
  | .jt _ _ => true
  | .jf _ _ => true
  | .call _ => true
  | .ret => true
  | _ => false

/-- The address an instruction stores to: the resolved `A` of `wmem`, and none for every other instruction (R53). -/
def Machine.State.storeTo? (s : State) : Instr → Option Nat
  | .wmem A _ =>
    match resolve s A with
    | .ok a => some a.toNat
    | .error _ => none
  | _ => none

/-- When an operand is of a kind its role does not accept, the instruction takes the error of a failing operand
(`InvalidOperand`, or `InvalidAddress` where there is no word to fetch) and has no effect (R101 phase 3, R182). Which of
several failing operands decides is said by `Instr.operandFault`. -/
def Instr.RaisesOperandErrors (i : Instr) : Prop :=
  ∀ s : State, i.wellFormed = false →
    ∃ e, (∃ p ∈ i.roles, p.2.fault p.1 = some e) ∧ exec i s = .next { s with run := .haltedError e s.pc }

/-- A word is narrow when it is at most 32767 (R22). -/
def Narrow (w : Word) : Prop :=
  w.toNat ≤ 32767

/-- Every register and every stack entry is narrow (R22). -/
def Machine.State.Narrow (s : State) : Prop :=
  (∀ r, Sys2Proof.Narrow (s.regs.get r)) ∧ ∀ v ∈ s.stack, Sys2Proof.Narrow v

/-- The two steps of R22 that can make a wide value: (a) an `rmem` that reads a wide word, (b) a `call` at 32766. -/
def Machine.State.MakesWide (s : State) : Prop :=
  (∃ A B b v, fetch s = .ok (.rmem A B) ∧ resolve s B = .ok b ∧ memRead s.mem b.toNat = .ok v ∧
    ¬ Sys2Proof.Narrow v) ∨
  ∃ A, fetch s = .ok (.call A) ∧ s.pc = 32766

/-- The invariant of the state: memory in its canonical form; an error was recorded with the program counter, which is
still there (R29), and is not the register file's own (R183). -/
def Machine.State.Inv (s : State) : Prop :=
  Memory.wf s.mem ∧
    ∀ k fpc, s.run = .haltedError k fpc → fpc = s.pc ∧ k ≠ .registerIndexOutOfRange

/-- A run is over without an error (R212). -/
def Machine.State.EndedNormally (s : State) : Prop :=
  s.run = .haltedNormal

/-- `n` pops in sequence: the words in the order popped, and the state after the last one (R27). -/
def popMany : Nat → State → Except ErrorKind (List Word × State)
  | 0, s => .ok ([], s)
  | n + 1, s =>
    match s.pop with
    | .error e => .error e
    | .ok (v, s') =>
      match popMany n s' with
      | .error e => .error e
      | .ok (vs, t) => .ok (v :: vs, t)

/-- An outcome with its next state changed by a function; a stop stays as it is. -/
def mapNext (f : State → State) : Outcome State Fault Refusal → Outcome State Fault Refusal
  | .next s => .next (f s)
  | .fault r => .fault r
  | .refused r => .refused r

end Sys2Proof
end

