-- ==== Sys2Proof/Certificates/Slice0/Obligations.lean ====
section
/-!
DEFINITION. The statements for the provers, from the spec's numbered rules. A statement that rests on a choice the spec
marks as its own (a decision D<n> of spec/92_eei_decisions.md) or on a choice of the model names it in its docstring.
`s`, `t` are states before and after, `d` a destination register, `A B C` operands, `a b c` their resolved values.
-/
open Host (Outcome)
open Sys2Proof Sys2Proof.Machine

/-! ### Storages -/

/-- R109 as the spec decides it (92 D1: stored raw, nothing reduced): a register write stores all 16 bits of the value and
changes no other register. -/
def Obligations.RegisterWriteStoresWord : Prop :=
  ∀ (s : State) (d r : Reg) (v : Word), (s.setReg d v).regs.get r = if r = d then v else s.regs.get r

/-- R104: the register file's `get` and `set` fail with `RegisterIndexOutOfRange` exactly when the index is not 0 to 7,
and no step of the machine ever ends with that error. -/
def Obligations.RegisterIndexErrorOnlyOutOfRange : Prop :=
  (∀ (f : RegFile) (r : Reg) (v : Word),
    r.index ≤ 7 ∧ f.getAt r.index = .ok (f.get r) ∧ f.setAt r.index v = .ok (f.set r v)) ∧
  (∀ (f : RegFile) (index : Nat) (v : Word), 7 < index →
    f.getAt index = .error .registerIndexOutOfRange ∧ f.setAt index v = .error .registerIndexOutOfRange) ∧
  (∀ index, index ≤ 7 → ∃ r : Reg, r.index = index) ∧
  ∀ (s t : State) (fpc : Word), step s = .next t → t.run ≠ .haltedError .registerIndexOutOfRange fpc

/-- R51, R52: in a memory of canonical form, below 32768 a write succeeds, the written address then reads the written
word and every other address reads as before; above 32767 both accesses are `InvalidAddress`. -/
def Obligations.MemoryReadAfterWrite : Prop :=
  ∀ (m : Memory) (a : Nat) (v : Word), Memory.wf m →
    (a ≤ 32767 → ∃ m', memWrite m a v = .ok m' ∧ memRead m' a = .ok v ∧
      ∀ b, b ≠ a → memRead m' b = memRead m b) ∧
    (32767 < a → memWrite m a v = .error .invalidAddress ∧ memRead m a = .error .invalidAddress)

/-- R62: the word a `wmem` has stored is what the next fetch from that address gives first, whatever was fetched there
before. -/
def Obligations.StoredWordIsFetched : Prop :=
  ∀ (s : State) (A B : Operand) (a b : Word), Memory.wf s.mem →
    resolve s A = .ok a → resolve s B = .ok b → a.toNat ≤ 32767 →
    ∃ t, exec (.wmem A B) s = .next t ∧ (fetchWords t.mem a.toNat 4).head? = some b

/-- R27: `n` words pushed in sequence and then `n` pops give the words back in the reverse order and leave the state as it
was; a pop of the empty stack fails with `StackUnderflow`. -/
def Obligations.StackIsLifo : Prop :=
  (∀ (s : State) (vs : List Word), popMany vs.length (vs.foldl State.push s) = .ok (vs.reverse, s)) ∧
  ∀ s : State, s.stack = [] → s.pop = .error .stackUnderflow

/-! ### Operands -/

/-- R102: `Resolve` of an operand word: at most 32767 it is the word itself; 32768 to 32775 it is the content of the
register of that index, all 16 bits; above 32775 it is `InvalidOperand`. -/
def Obligations.ResolveByValue : Prop :=
  ∀ (s : State) (w : Word),
    (w.toNat ≤ 32767 → resolve s (Operand.ofWord w) = .ok w) ∧
    (∀ r : Reg, w.toNat = 32768 + r.index → resolve s (Operand.ofWord w) = .ok (s.regs.get r)) ∧
    (32775 < w.toNat → resolve s (Operand.ofWord w) = .error .invalidOperand)

/-- R103: `Dest` of an operand word: 32768 to 32775 it is the register of that index; every other word is
`InvalidOperand`. -/
def Obligations.DestByValue : Prop :=
  ∀ w : Word,
    (∀ r : Reg, w.toNat = 32768 + r.index → dest (Operand.ofWord w) = .ok r) ∧
    (w.toNat < 32768 ∨ 32775 < w.toNat → dest (Operand.ofWord w) = .error .invalidOperand)

/-- R105 item 3 and R182, in the order the spec decides (92 D3: operand by operand): an instruction with a failing operand
takes the error of its first failing operand and has no effect, whatever the state: before an empty stack, a zero divisor,
a bad data address or the input source is looked at. -/
def Obligations.FirstFailingOperandDecides : Prop :=
  ∀ (i : Instr) (s : State) (e : ErrorKind), i.operandFault = some e →
    exec i s = .next { s with run := .haltedError e s.pc }

/-! ### The instructions: encoding, operand errors, effect -/

/-- R120 `set`: the words are `1, A, B`; a failing operand raises its error; otherwise `x[d] <- b`, `pc <- pc + 3`.
All 16 bits of `b` are stored (92 D1). -/
def Obligations.SetCopies : Prop :=
  ∀ A B : Operand, (Instr.set A B).encode = 1 :: (A.encode ++ B.encode) ∧ (Instr.set A B).RaisesOperandErrors ∧
    ∀ (s : State) (d : Reg) (b : Word), dest A = .ok d → resolve s B = .ok b →
      exec (.set A B) s = .next { s with regs := s.regs.set d b, pc := s.pc + 3 }

/-- R121 `push`: the words are `2, A`; a failing operand raises its error; otherwise `a` becomes the last element of the
stack, `pc <- pc + 2`, and nothing else changes. -/
def Obligations.PushAppends : Prop :=
  ∀ A : Operand, (Instr.push A).encode = 2 :: A.encode ∧ (Instr.push A).RaisesOperandErrors ∧
    ∀ (s : State) (a : Word), resolve s A = .ok a →
      exec (.push A) s = .next { s with stack := s.stack ++ [a], pc := s.pc + 2 }

/-- R122 `pop`: the words are `3, A`; a failing destination raises its error first; then the empty stack is
`StackUnderflow` with nothing else changed; otherwise the last element goes to the register, unchanged in all 16 bits (stored
raw also above 32767 by the spec's own choice 92 D1; notes/assumptions/2.md). -/
def Obligations.PopTakesTop : Prop :=
  ∀ A : Operand, (Instr.pop A).encode = 3 :: A.encode ∧ (Instr.pop A).RaisesOperandErrors ∧
    ∀ (s : State) (d : Reg), dest A = .ok d →
      (s.stack = [] → exec (.pop A) s = .next { s with run := .haltedError .stackUnderflow s.pc }) ∧
      ∀ (rest : List Word) (v : Word), s.stack = rest ++ [v] →
        exec (.pop A) s = .next { s with regs := s.regs.set d v, stack := rest, pc := s.pc + 2 }

/-- R125 `eq`: the words are `4, A, B, C`; a failing operand raises its error; otherwise 1 or 0 goes to the register as the
two 16-bit words are equal or not (for words above 32767 by 92 D16). -/
def Obligations.EqComparesWords : Prop :=
  ∀ A B C : Operand, (Instr.eq A B C).encode = 4 :: (A.encode ++ (B.encode ++ C.encode)) ∧
    (Instr.eq A B C).RaisesOperandErrors ∧
    ∀ (s : State) (d : Reg) (b c : Word), dest A = .ok d → resolve s B = .ok b → resolve s C = .ok c →
      exec (.eq A B C) s = .next { s with regs := s.regs.set d (if b = c then 1 else 0), pc := s.pc + 4 }

/-- R126 `gt`: the words are `5, A, B, C`; a failing operand raises its error; otherwise 1 goes to the register when `b` is
strictly greater than `c` as unsigned numbers, else 0 (for words above 32767 by 92 D16). -/
def Obligations.GtComparesUnsigned : Prop :=
  ∀ A B C : Operand, (Instr.gt A B C).encode = 5 :: (A.encode ++ (B.encode ++ C.encode)) ∧
    (Instr.gt A B C).RaisesOperandErrors ∧
    ∀ (s : State) (d : Reg) (b c : Word), dest A = .ok d → resolve s B = .ok b → resolve s C = .ok c →
      exec (.gt A B C) s =
        .next { s with regs := s.regs.set d (if c.toNat < b.toNat then 1 else 0), pc := s.pc + 4 }

/-- R130 `jmp`: the words are `6, A`; a failing operand raises its error; otherwise `pc <- a` and nothing else changes (the
target is not checked here, 92 D2). -/
def Obligations.JmpSetsPc : Prop :=
  ∀ A : Operand, (Instr.jmp A).encode = 6 :: A.encode ∧ (Instr.jmp A).RaisesOperandErrors ∧
    ∀ (s : State) (a : Word), resolve s A = .ok a → exec (.jmp A) s = .next { s with pc := a }

/-- R131 `jt`: the words are `7, A, B`; a failing operand raises its error whether or not the jump would be taken; otherwise
`pc` becomes `b` when `a` is not 0 and `pc + 3` when it is, and nothing else changes (92 D2 for the target). -/
def Obligations.JtJumpsOnNonzero : Prop :=
  ∀ A B : Operand, (Instr.jt A B).encode = 7 :: (A.encode ++ B.encode) ∧ (Instr.jt A B).RaisesOperandErrors ∧
    ∀ (s : State) (a b : Word), resolve s A = .ok a → resolve s B = .ok b →
      exec (.jt A B) s = .next { s with pc := if a = 0 then s.pc + 3 else b }

/-- R132 `jf`: the words are `8, A, B`; a failing operand raises its error whether or not the jump would be taken; otherwise
`pc` becomes `b` when `a` is 0 and `pc + 3` when it is not, and nothing else changes (92 D2 for the target). -/
def Obligations.JfJumpsOnZero : Prop :=
  ∀ A B : Operand, (Instr.jf A B).encode = 8 :: (A.encode ++ B.encode) ∧ (Instr.jf A B).RaisesOperandErrors ∧
    ∀ (s : State) (a b : Word), resolve s A = .ok a → resolve s B = .ok b →
      exec (.jf A B) s = .next { s with pc := if a = 0 then b else s.pc + 3 }

/-- R140 `add`: the words are `9, A, B, C`; a failing operand raises its error; otherwise `x[d] <- (b + c) mod 32768`, at
most 32767 whatever the inputs; `pc <- pc + 4`. -/
def Obligations.AddModulo : Prop :=
  ∀ A B C : Operand, (Instr.add A B C).encode = 9 :: (A.encode ++ (B.encode ++ C.encode)) ∧
    (Instr.add A B C).RaisesOperandErrors ∧
    ∀ (s : State) (d : Reg) (b c : Word), dest A = .ok d → resolve s B = .ok b → resolve s C = .ok c →
      ∃ v : Word, v.toNat = (b.toNat + c.toNat) % 32768 ∧
        exec (.add A B C) s = .next { s with regs := s.regs.set d v, pc := s.pc + 4 }

/-- R141 `mult`: the words are `10, A, B, C`; a failing operand raises its error; otherwise
`x[d] <- (b * c) mod 32768` of the exact product, which is bits 14 to 0 of the product, also of the product kept to its low
16 bits; `pc <- pc + 4`. -/
def Obligations.MultModulo : Prop :=
  ∀ A B C : Operand, (Instr.mult A B C).encode = 10 :: (A.encode ++ (B.encode ++ C.encode)) ∧
    (Instr.mult A B C).RaisesOperandErrors ∧
    ∀ (s : State) (d : Reg) (b c : Word), dest A = .ok d → resolve s B = .ok b → resolve s C = .ok c →
      ∃ v : Word, v.toNat = (b.toNat * c.toNat) % 32768 ∧ v = (b * c) &&& 0x7FFF ∧
        exec (.mult A B C) s = .next { s with regs := s.regs.set d v, pc := s.pc + 4 }

/-- R142 `mod`: the words are `11, A, B, C`; a failing operand raises its error first; then the divisor 0 is
`DivisionByZero` whatever `b` is, with nothing else changed; otherwise the register gets the unsigned remainder, the number
`r < c` with `b = c * (b / c) + r` (for words above 32767 by 92 D16). -/
def Obligations.ModRemainder : Prop :=
  ∀ A B C : Operand, (Instr.mod A B C).encode = 11 :: (A.encode ++ (B.encode ++ C.encode)) ∧
    (Instr.mod A B C).RaisesOperandErrors ∧
    ∀ (s : State) (d : Reg) (b c : Word), dest A = .ok d → resolve s B = .ok b → resolve s C = .ok c →
      (c = 0 → exec (.mod A B C) s = .next { s with run := .haltedError .divisionByZero s.pc }) ∧
      (c ≠ 0 → ∃ v : Word, v.toNat < c.toNat ∧ b.toNat = c.toNat * (b.toNat / c.toNat) + v.toNat ∧
        exec (.mod A B C) s = .next { s with regs := s.regs.set d v, pc := s.pc + 4 })

/-- R143 `and`: the words are `12, A, B, C`; a failing operand raises its error; otherwise the register gets the word whose
bit `i` is `b[i] and c[i]`, for `i` 0 to 15 (for words above 32767 by 92 D16). -/
def Obligations.AndBitwise : Prop :=
  ∀ A B C : Operand, (Instr.and A B C).encode = 12 :: (A.encode ++ (B.encode ++ C.encode)) ∧
    (Instr.and A B C).RaisesOperandErrors ∧
    ∀ (s : State) (d : Reg) (b c : Word), dest A = .ok d → resolve s B = .ok b → resolve s C = .ok c →
      ∃ v : Word, (∀ i, i < 16 → v.getLsbD i = (b.getLsbD i && c.getLsbD i)) ∧
        exec (.and A B C) s = .next { s with regs := s.regs.set d v, pc := s.pc + 4 }

/-- R144 `or`: the words are `13, A, B, C`; a failing operand raises its error; otherwise the register gets the word whose
bit `i` is `b[i] or c[i]`, for `i` 0 to 15 (for words above 32767 by 92 D16). -/
def Obligations.OrBitwise : Prop :=
  ∀ A B C : Operand, (Instr.or A B C).encode = 13 :: (A.encode ++ (B.encode ++ C.encode)) ∧
    (Instr.or A B C).RaisesOperandErrors ∧
    ∀ (s : State) (d : Reg) (b c : Word), dest A = .ok d → resolve s B = .ok b → resolve s C = .ok c →
      ∃ v : Word, (∀ i, i < 16 → v.getLsbD i = (b.getLsbD i || c.getLsbD i)) ∧
        exec (.or A B C) s = .next { s with regs := s.regs.set d v, pc := s.pc + 4 }

/-- R145 `not`: the words are `14, A, B`; a failing operand raises its error; otherwise the register gets
`(65535 - b) mod 32768`, which is `32767 - (b mod 32768)` and is `b[14:0] XOR 0x7FFF`; `pc <- pc + 3`. -/
def Obligations.NotComplements : Prop :=
  ∀ A B : Operand, (Instr.not A B).encode = 14 :: (A.encode ++ B.encode) ∧ (Instr.not A B).RaisesOperandErrors ∧
    ∀ (s : State) (d : Reg) (b : Word), dest A = .ok d → resolve s B = .ok b →
      ∃ v : Word, v.toNat = (65535 - b.toNat) % 32768 ∧ v.toNat = 32767 - b.toNat % 32768 ∧
        v = (b &&& 0x7FFF) ^^^ 0x7FFF ∧
        exec (.not A B) s = .next { s with regs := s.regs.set d v, pc := s.pc + 3 }

/-- R150 `rmem`: the words are `15, A, B`; a failing operand raises its error first; then an address above 32767 is
`InvalidAddress` with nothing else changed; otherwise the register gets the word at address `b`, all 16 bits (92 D1). -/
def Obligations.RmemLoads : Prop :=
  ∀ A B : Operand, (Instr.rmem A B).encode = 15 :: (A.encode ++ B.encode) ∧ (Instr.rmem A B).RaisesOperandErrors ∧
    ∀ (s : State) (d : Reg) (b : Word), dest A = .ok d → resolve s B = .ok b →
      (b.toNat ≤ 32767 → exec (.rmem A B) s =
        .next { s with regs := s.regs.set d (Memory.read s.mem b.toNat), pc := s.pc + 3 }) ∧
      (32767 < b.toNat → exec (.rmem A B) s = .next { s with run := .haltedError .invalidAddress s.pc })

/-- R151 `wmem`: the words are `16, A, B`; a failing operand raises its error first; then an address above 32767 is
`InvalidAddress` with nothing changed; otherwise, in a memory of canonical form, the word at address `a` becomes `b`, all
16 bits, every other word is unchanged, no register changes and `pc <- pc + 3`. -/
def Obligations.WmemStores : Prop :=
  ∀ A B : Operand, (Instr.wmem A B).encode = 16 :: (A.encode ++ B.encode) ∧ (Instr.wmem A B).RaisesOperandErrors ∧
    ∀ (s : State) (a b : Word), Memory.wf s.mem → resolve s A = .ok a → resolve s B = .ok b →
      (a.toNat ≤ 32767 → ∃ m : Memory,
        (∀ x, Memory.read m x = if x = a.toNat then b else Memory.read s.mem x) ∧
        exec (.wmem A B) s = .next { s with mem := m, pc := s.pc + 3 }) ∧
      (32767 < a.toNat → exec (.wmem A B) s = .next { s with run := .haltedError .invalidAddress s.pc })

/-- R155 `call`: the words are `17, A`; a failing operand raises its error and nothing is pushed; otherwise `pc + 2` becomes
the last element of the stack, `pc <- a`, and nothing else changes (the target is not checked here, 92 D2). -/
def Obligations.CallPushesReturn : Prop :=
  ∀ A : Operand, (Instr.call A).encode = 17 :: A.encode ∧ (Instr.call A).RaisesOperandErrors ∧
    ∀ (s : State) (a : Word), resolve s A = .ok a →
      exec (.call A) s = .next { s with stack := s.stack ++ [s.pc + 2], pc := a }

/-- R156 `ret`: the word is `18`; on the empty stack it is the error `StackUnderflow` with `pc` at the `ret`; otherwise the
last element of the stack goes to `pc`, whatever pushed it, all 16 bits, and no register changes (a word above 32767 goes to
`pc` unchecked by the spec's own choice 92 D2; notes/assumptions/10.md). -/
def Obligations.RetPopsPc : Prop :=
  Instr.ret.encode = [18] ∧
  ∀ s : State,
    (s.stack = [] → exec .ret s = .next { s with run := .haltedError .stackUnderflow s.pc }) ∧
    ∀ (rest : List Word) (v : Word), s.stack = rest ++ [v] →
      exec .ret s = .next { s with stack := rest, pc := v }

/-- R155, R156, R157: a `ret` right after a `call` comes back to the word after the `call`'s operand with the stack as it
was. -/
def Obligations.RetAfterCall : Prop :=
  ∀ (s : State) (A : Operand) (a : Word), resolve s A = .ok a →
    ∃ t, exec (.call A) s = .next t ∧ t.pc = a ∧ exec .ret t = .next { s with pc := s.pc + 2 }

/-- R160, R162, R163 `out`: the words are `19, A`; a failing operand raises its error and nothing is emitted; otherwise the
whole word `a` is appended to `out`, `pc <- pc + 2`, and nothing else changes. The character it adds at the end of those
seen is the word modulo 256 (for words above 255 the spec's own choice, 92 D5; notes/assumptions/3.md). -/
def Obligations.OutEmits : Prop :=
  ∀ A : Operand, (Instr.out A).encode = 19 :: A.encode ∧ (Instr.out A).RaisesOperandErrors ∧
    ∀ (s : State) (a : Word), resolve s A = .ok a →
      ∃ t, exec (.out A) s = .next t ∧ t = { s with out := s.out ++ [a], pc := s.pc + 2 } ∧
        ∃ ch : Byte, ch.toNat = a.toNat % 256 ∧ t.outChars = s.outChars ++ [ch]

/-- R161, R164, R165 `in`: the words are `20, A`; a failing destination raises its error and no code is consumed; with a code
available it leaves the input source and goes to the register zero-extended (8-bit codes: 92 D6), `pc <- pc + 2`; at
end-of-input the error is `InputExhausted`; while nothing is available and end-of-input is not signalled the step does not
take place (92 D15; the stop `holding`, notes/assumptions/6.md). -/
def Obligations.InReadsCode : Prop :=
  ∀ A : Operand, (Instr.input A).encode = 20 :: A.encode ∧ (Instr.input A).RaisesOperandErrors ∧
    ∀ (s : State) (d : Reg), dest A = .ok d →
      (∀ (c : Byte) (rest : List Byte), s.inp = c :: rest →
        ∃ v : Word, v.toNat = c.toNat ∧
          exec (.input A) s = .next { s with regs := s.regs.set d v, inp := rest, pc := s.pc + 2 }) ∧
      (s.inp = [] → s.inpEnd = true →
        exec (.input A) s = .next { s with run := .haltedError .inputExhausted s.pc }) ∧
      (s.inp = [] → s.inpEnd = false → exec (.input A) s = .fault .holding)

/-- R170 `halt`: the word is `0`; the run state becomes `Halted(Normal)`; `pc` keeps the address of the `halt` and nothing
else changes; no later step exists. A memory word that is 0 is a `halt` when fetched as an opcode. -/
def Obligations.HaltEndsRun : Prop :=
  Instr.halt.encode = [0] ∧
  ∀ s : State, exec .halt s = .next { s with run := .haltedNormal } ∧
    step { s with run := .haltedNormal } = .fault .terminal ∧
    (s.run = .running → memRead s.mem s.pc.toNat = .ok 0 → step s = .next { s with run := .haltedNormal })

/-- R171 `noop`: the word is `21`; `pc <- pc + 1` and nothing else changes. At 32767 it leaves `pc = 32768`, and the next step
ends the run with `InvalidAddress` (92 D13). -/
def Obligations.NoopAdvances : Prop :=
  Instr.noop.encode = [21] ∧
  ∀ s : State, exec .noop s = .next { s with pc := s.pc + 1 } ∧
    (s.run = .running → s.pc = 32767 → memRead s.mem 32767 = .ok 21 →
      ∃ t, step s = .next t ∧ t = { s with pc := 32768 } ∧
        step t = .next { t with run := .haltedError .invalidAddress 32768 })

/-! ### Values -/

/-- R106: sources are read before the destination is written. `add r, r, r` doubles `r` modulo 32768; `rmem r, r` replaces
`r` by the word at the address `r` held; `set r, r` leaves every register as it was. -/
def Obligations.ReadsBeforeWrites : Prop :=
  ∀ (s : State) (r : Reg),
    exec (.add (.reg r) (.reg r) (.reg r)) s = .next { s with
      regs := s.regs.set r (BitVec.ofNat 16 ((2 * (s.regs.get r).toNat) % 32768)), pc := s.pc + 4 } ∧
    ((s.regs.get r).toNat ≤ 32767 → exec (.rmem (.reg r) (.reg r)) s = .next { s with
      regs := s.regs.set r (Memory.read s.mem (s.regs.get r).toNat), pc := s.pc + 3 }) ∧
    exec (.set (.reg r) (.reg r)) s = .next { s with pc := s.pc + 3 }

/-- R149: with operands that resolve, the result left in the destination register: `add`, `mult`, `not` at most 32767 for
every 16-bit input; `eq` and `gt` 0 or 1; `mod` below `c`; `and` at most `b` and at most `c`; `or` at most 32767 when both
inputs are. -/
def Obligations.ResultRanges : Prop :=
  ∀ (s : State) (d : Reg) (B C : Operand) (b c : Word), resolve s B = .ok b → resolve s C = .ok c →
    (∀ i, i = Instr.add (.reg d) B C ∨ i = Instr.mult (.reg d) B C ∨ i = Instr.not (.reg d) B →
      ∃ t, exec i s = .next t ∧ (t.regs.get d).toNat ≤ 32767) ∧
    (∀ i, i = Instr.eq (.reg d) B C ∨ i = Instr.gt (.reg d) B C →
      ∃ t, exec i s = .next t ∧ (t.regs.get d = 0 ∨ t.regs.get d = 1)) ∧
    (c ≠ 0 → ∃ t, exec (.mod (.reg d) B C) s = .next t ∧ (t.regs.get d).toNat < c.toNat) ∧
    (∃ t, exec (.and (.reg d) B C) s = .next t ∧
      (t.regs.get d).toNat ≤ b.toNat ∧ (t.regs.get d).toNat ≤ c.toNat) ∧
    ∃ t, exec (.or (.reg d) B C) s = .next t ∧
      (b.toNat ≤ 32767 → c.toNat ≤ 32767 → (t.regs.get d).toNat ≤ 32767)

/-! ### Frames: what no instruction changes -/

/-- R23: an instruction changes no register but the one its destination operand names. -/
def Obligations.RegisterFrame : Prop :=
  ∀ (i : Instr) (s t : State) (r : Reg), exec i s = .next t → i.target? ≠ some r → t.regs.get r = s.regs.get r

/-- R32, R53: an instruction changes no word of memory but the one at the address a `wmem` stores to. -/
def Obligations.MemoryFrame : Prop :=
  ∀ (i : Instr) (s t : State) (a : Nat), exec i s = .next t → s.storeTo? i ≠ some a →
    Memory.read t.mem a = Memory.read s.mem a

/-- R28: the stack changes only through `push`, `call`, `pop` and `ret`: the first two add at most one element at the end,
the last two remove at most the last one. -/
def Obligations.StackFrame : Prop :=
  ∀ (i : Instr) (s t : State), exec i s = .next t →
    t.stack = s.stack ∨
    (((∃ A, i = .push A) ∨ ∃ A, i = .call A) ∧ ∃ v, t.stack = s.stack ++ [v]) ∨
    (((∃ A, i = .pop A) ∨ i = .ret) ∧ ∃ v, s.stack = t.stack ++ [v])

/-- R36, R162, R164: only `out` changes the emitted history, by adding its value at the end; only `in` changes the input
source, by taking its first code; no instruction changes whether end-of-input is signalled. -/
def Obligations.PortFrame : Prop :=
  ∀ (i : Instr) (s t : State), exec i s = .next t →
    (t.out = s.out ∨ ∃ A a, i = .out A ∧ resolve s A = .ok a ∧ t.out = s.out ++ [a]) ∧
    (t.inp = s.inp ∨ ∃ A c, i = .input A ∧ s.inp = c :: t.inp) ∧ t.inpEnd = s.inpEnd

/-- R29, R107: an instruction other than a jump, `call` or `ret` that leaves the run state as it was moves `pc` by its own
length; `halt` and every error change nothing but the run state. -/
def Obligations.PcAndRunFrame : Prop :=
  ∀ (i : Instr) (s t : State), exec i s = .next t →
    (t.run = s.run ∧ (i.redirects = true ∨ t.pc = s.pc + BitVec.ofNat 16 i.length)) ∨
    (i = .halt ∧ t = { s with run := .haltedNormal }) ∨
    ∃ k, t = { s with run := .haltedError k s.pc }

/-! ### The step -/

/-- R10: a state whose `run` is not `Running` has no step. -/
def Obligations.TerminalStatesHaveNoStep : Prop :=
  ∀ s : State, s.run ≠ .running → step s = .fault .terminal

/-- R214, R89, R35: nothing is undefined. From every `Running` state that does not hold at an `in` a step gives a next state,
and in one that holds no step is enabled (92 D15; the stop `holding`, notes/assumptions/6.md). -/
def Obligations.RunningStatesStep : Prop :=
  ∀ s : State, s.run = .running →
    (s.holding = false → ∃ t, step s = .next t) ∧ (s.holding = true → step s = .fault .holding)

/-- R112: when the words from `pc` decode to an instruction, the step is that instruction's meaning at that state, with
nothing added around it. -/
def Obligations.StepRunsDecoded : Prop :=
  ∀ (s : State) (i : Instr) (rest : List Word), s.run = .running →
    decode (fetchWords s.mem s.pc.toNat 4) = .ok (i, rest) → step s = exec i s

/-- R80, R85, R112: when memory holds the words of a well-formed instruction from `pc` on, the step is that instruction's
meaning, whatever stands after it. -/
def Obligations.StepRunsStoredInstruction : Prop :=
  ∀ (s : State) (i : Instr), s.run = .running → i.wellFormed = true →
    (∀ k, (h : k < i.encode.length) → memRead s.mem (s.pc.toNat + k) = .ok i.encode[k]) → step s = exec i s

/-- R86, R181: an opcode word above 21 ends the run with `InvalidOpcode`, `pc` at the failing instruction, nothing emitted
and nothing else changed. -/
def Obligations.InvalidOpcodeFaults : Prop :=
  ∀ (s : State) (op : Word), s.run = .running → memRead s.mem s.pc.toNat = .ok op → 21 < op.toNat →
    step s = .next { s with run := .haltedError .invalidOpcode s.pc }

/-- R101 phase 1, R184, R59, as the spec decides (92 D2, D3, D13): addresses do not wrap. A `pc` above 32767 is
`InvalidAddress` at the fetch, with the out-of-range `pc` recorded. So is every operand that would lie above 32767, when the
operands before it are valid: the first at `pc` 32767; the second at 32766; the third at 32765. The opcodes are listed by
their operand counts and by the role of `A` (R85): a destination word is 32768 to 32775, a source word at most 32775. -/
def Obligations.AddressesDoNotWrap : Prop :=
  (∀ s : State, s.run = .running → 32767 < s.pc.toNat →
    step s = .next { s with run := .haltedError .invalidAddress s.pc }) ∧
  (∀ (s : State) (op : Word), s.run = .running → s.pc = 32767 → memRead s.mem 32767 = .ok op →
    op.toNat ≤ 21 → op ≠ 0 → op ≠ 18 → op ≠ 21 →
    step s = .next { s with run := .haltedError .invalidAddress 32767 }) ∧
  (∀ (s : State) (op A : Word), s.run = .running → s.pc = 32766 → memRead s.mem 32766 = .ok op →
    memRead s.mem 32767 = .ok A →
    (op.toNat ∈ [1, 4, 5, 9, 10, 11, 12, 13, 14, 15] ∧ 32768 ≤ A.toNat ∨ op.toNat ∈ [7, 8, 16]) → A.toNat ≤ 32775 →
    step s = .next { s with run := .haltedError .invalidAddress 32766 }) ∧
  ∀ (s : State) (op A B : Word), s.run = .running → s.pc = 32765 → memRead s.mem 32765 = .ok op →
    memRead s.mem 32766 = .ok A → memRead s.mem 32767 = .ok B →
    op.toNat ∈ [4, 5, 9, 10, 11, 12, 13] → 32768 ≤ A.toNat → A.toNat ≤ 32775 → B.toNat ≤ 32775 →
    step s = .next { s with run := .haltedError .invalidAddress 32765 }

/-- R26 (and 92 D13): a sequential advance does not overflow. When a step from `Running` executes an instruction that does
not redirect `pc` and the run goes on, `pc` grows by the instruction's length as a number and is at most 32768. -/
def Obligations.SequentialPcBound : Prop :=
  ∀ (s t : State) (i : Instr), s.run = .running → fetch s = .ok i → i.redirects = false →
    step s = .next t → t.run = .running → t.pc.toNat = s.pc.toNat + i.length ∧ t.pc.toNat ≤ 32768

/-- R188, R190: an error records the kind and the `pc` of the failing step and changes nothing else, and the state it leaves
is terminal. -/
def Obligations.ErrorsArePrecise : Prop :=
  ∀ (s t : State) (k : ErrorKind) (fpc : Word), step s = .next t → t.run = .haltedError k fpc →
    t = { s with run := .haltedError k s.pc } ∧ fpc = s.pc ∧ step t = .fault .terminal

/-- R198, R170: `Halted(Normal)` is reached only by executing a `halt`: the word at `pc` is 0 and nothing but the run state
changes. -/
def Obligations.OnlyHaltEndsNormally : Prop :=
  ∀ s t : State, step s = .next t → t.EndedNormally →
    memRead s.mem s.pc.toNat = .ok 0 ∧ t = { s with run := .haltedNormal }

/-- R22, the invariant with its exact condition: if every register and every stack entry is at most 32767, they are again
after one step, except an `rmem` that reads a wide word and a `call` at 32766. It rests on the spec's decision to store raw
words (92 D1). -/
def Obligations.NarrowInvariant : Prop :=
  ∀ s t : State, s.Narrow → ¬ s.MakesWide → step s = .next t → t.Narrow

/-- The invariant of the model that every step keeps: memory stays in its canonical form with no address above 32767
(R32), and an error is recorded with the `pc` that is still there (R29) and is never the register file's own (R183). -/
def Obligations.InvariantKept : Prop :=
  ∀ s t : State, s.Inv → step s = .next t → t.Inv

/-- The invariant of `InvariantKept`, and that of `NarrowInvariant` (R22, R37), hold when a run starts: in `State.reset`, and
whatever the image and the input. -/
def Obligations.InvariantsAtReset : Prop :=
  (State.reset.Inv ∧ State.reset.Narrow) ∧
  ∀ (image : List Word) (codes : List Byte) (ended : Bool),
    (State.resetWith image codes ended).Inv ∧ (State.resetWith image codes ended).Narrow

/-! ### Isolation -/

/-- R162, R36: no instruction can read what was emitted: a different history before changes nothing of a step but that
history. -/
def Obligations.OutputIsNotRead : Prop :=
  ∀ (s : State) (history : List Word),
    step { s with out := history ++ s.out } = mapNext (fun t => { t with out := history ++ t.out }) (step s)

/-- R164: no code is looked at ahead: while a code is available, what the input source holds behind it, and whether it ends
there, changes nothing of a step. -/
def Obligations.InputIsNotReadAhead : Prop :=
  ∀ (s : State) (more : List Byte) (ended : Bool), s.inp ≠ [] →
    step { s with inp := s.inp ++ more, inpEnd := ended } =
      mapNext (fun t => { t with inp := t.inp ++ more, inpEnd := ended }) (step s)

/-- R28: there is no peek and no indexed access: while the stack is not empty, what lies below it changes nothing of a
step. -/
def Obligations.StackBelowIsNotRead : Prop :=
  ∀ (s : State) (below : List Word), s.stack ≠ [] →
    step { s with stack := below ++ s.stack } = mapNext (fun t => { t with stack := below ++ t.stack }) (step s)

/-! ### Encoding -/

/-- R92: encoding then decoding gives a well-formed instruction back, with every operand at every value, and leaves the words
behind it; so two different well-formed instructions never encode to the same words. -/
def Obligations.DecodeOfEncode : Prop :=
  (∀ (i : Instr) (rest : List Word), i.wellFormed = true → decode (i.encode ++ rest) = .ok (i, rest)) ∧
  ∀ i j : Instr, i.wellFormed = true → j.wellFormed = true → i.encode = j.encode → i = j

/-- R80 to R87: what the decoder reads encodes to exactly the words it consumed, well formed or not: no bit of an encoding
is dropped. -/
def Obligations.EncodeOfDecode : Prop :=
  ∀ (ws : List Word) (i : Instr) (rest : List Word), decode ws = .ok (i, rest) → i.encode ++ rest = ws

/-- R82, R86, R89: the whole opcode word decides: 0 to 21 always decode, whatever follows, and every other word is refused as
an opcode, whatever follows. -/
def Obligations.OpcodeWordDecides : Prop :=
  ∀ (op : Word) (ws : List Word),
    (op.toNat ≤ 21 → ∃ i rest, decode (op :: ws) = .ok (i, rest) ∧ i.opcode = op) ∧
    (21 < op.toNat → decode (op :: ws) = .error (.badOpcode op))

/-- Words written out from R82, R83 and R85, one of each family. -/
def Obligations.SampleWordsDecode : Prop :=
  decode [0b0000000000000010, 0b0000000000001010] = .ok (.push (.lit 10), []) ∧
  decode [0b0000000000000101, 0b1000000000000000, 0b1000000000000111, 0b0111111111111111] =
    .ok (.gt (.reg .r0) (.reg .r7) (.lit 32767), []) ∧
  decode [0b0000000000001000, 0b1000000000000010, 0b0000000000010011] = .ok (.jf (.reg .r2) (.lit 19), []) ∧
  decode [0b0000000000001001, 0b1000000000000000, 0b0000000000000100, 0b0000000000000101] =
    .ok (.add (.reg .r0) (.lit 4) (.lit 5), []) ∧
  decode [0b0000000000010000, 0b0000000000011110, 0b1000000000000000] = .ok (.wmem (.lit 30) (.reg .r0), []) ∧
  decode [0b0000000000010001, 0b0000000000001001] = .ok (.call (.lit 9), []) ∧
  decode [0b0000000000010100, 0b1000000000000001] = .ok (.input (.reg .r1), []) ∧
  decode [0b0000000000010101] = .ok (.noop, [])

/-! ### Reset and the status record -/

/-- R37, R210, R211: the state when a run starts from an image and an input source: memory holds the image word by word, the
registers are 0, `pc` is 0, the stack is empty, the run state is `Running`, the status fields are 0 (92 D7), nothing is
emitted and nothing of the input is consumed. Words beyond a short image read as 0 (the spec's own choice, 92 D9;
notes/assumptions/4.md). `State.reset` is the state of the empty image with an empty, ended input source (the model's choice,
notes/assumptions/5.md). -/
def Obligations.ResetState : Prop :=
  (∀ (image : List Word) (codes : List Byte) (ended : Bool), image.length ≤ 32768 →
    ∃ s, s = State.resetWith image codes ended ∧
      (∀ a, (h : a < image.length) → memRead s.mem a = .ok image[a]) ∧
      (∀ a, image.length ≤ a → a ≤ 32767 → memRead s.mem a = .ok 0) ∧
      (∀ r, s.regs.get r = 0) ∧ s.pc = 0 ∧ s.stack = [] ∧ s.run = .running ∧
      s.statusState = 0 ∧ s.statusKind = 0 ∧ s.statusFpc = 0 ∧ s.out = [] ∧ s.inp = codes ∧ s.inpEnd = ended) ∧
  State.resetWith [] [] true = State.reset

/-- R30, R180, in the layout and with the codes the spec decides (92 D7; notes/assumptions/15.md): the three fields of the
status record in their bits, 0 when they have nothing to say, and the code of each error kind. -/
def Obligations.StatusRecordFields : Prop :=
  (∀ s : State,
    (s.run = .running → s.status = 0) ∧
    (s.run = .haltedNormal → s.status.toNat = 1) ∧
    ∀ (k : ErrorKind) (fpc : Word), s.run = .haltedError k fpc →
      s.status.toNat = fpc.toNat * 32 + k.code * 4 + 2) ∧
  ErrorKind.code .invalidOpcode = 1 ∧ ErrorKind.code .invalidOperand = 2 ∧
  ErrorKind.code .registerIndexOutOfRange = 3 ∧ ErrorKind.code .invalidAddress = 4 ∧
  ErrorKind.code .stackUnderflow = 5 ∧ ErrorKind.code .divisionByZero = 6 ∧ ErrorKind.code .inputExhausted = 7

/-- R35, R164 to R166 (92 D15; the moves of the environment are notes/assumptions/7.md, the stop `holding` is 6.md). In a machine
that holds no step is enabled and it is `Running`; as soon as a code (8 bits, 92 D6) is supplied, the step completes with it in the
register of the `in`; as soon as end-of-input is signalled, the step is `InputExhausted`. Before end-of-input, in every state, a
supplied code goes behind those already available and end-of-input may be signalled, nothing else changing; after it there is
no further code and no second signal. -/
def Obligations.HoldUntilSupplied : Prop :=
  (∀ s : State, s.holding = true →
    step s = .fault .holding ∧ s.run = .running ∧
    (∀ c : Byte, ∃ u t d, s.supplyCode c = some u ∧ step u = .next t ∧ fetch s = .ok (.input (.reg d)) ∧
      t = { s with regs := s.regs.set d (c.setWidth 16), pc := s.pc + 2 }) ∧
    ∃ u, s.signalEnd = some u ∧ step u = .next { u with run := .haltedError .inputExhausted s.pc }) ∧
  ∀ (s : State) (c : Byte),
    (s.inpEnd = false →
      s.supplyCode c = some { s with inp := s.inp ++ [c] } ∧ s.signalEnd = some { s with inpEnd := true }) ∧
    (s.inpEnd = true → s.supplyCode c = none ∧ s.signalEnd = none)
end

