-- ==== Sys2Proof/Laws/State.lean ====
section
/-!
SUPPORT. One lemma per field per update of the state, and the register file's laws.
-/
namespace Sys2Proof

@[simp] theorem Reg.ofIndex?_index (r : Reg) : Reg.ofIndex? r.index = some r := by
  cases r <;> rfl

theorem Reg.index_lt (r : Reg) : r.index < 8 := by
  cases r <;> decide

theorem Reg.ofIndex?_eq_some {n : Nat} {r : Reg} (h : Reg.ofIndex? n = some r) : r.index = n := by
  unfold Reg.ofIndex? at h
  split at h <;> simp_all <;> subst h <;> rfl

theorem Reg.ofIndex?_eq_none {n : Nat} : Reg.ofIndex? n = none ↔ 8 ≤ n := by
  match n with
  | 0 | 1 | 2 | 3 | 4 | 5 | 6 | 7 => simp [Reg.ofIndex?]
  | n + 8 => simp [Reg.ofIndex?]

namespace Machine

variable (s : State) (d : Reg) (v : Word) (n : Nat) (k : ErrorKind)

/-! ### `setReg` -/

@[simp] theorem State.setReg_mem : (s.setReg d v).mem = s.mem := rfl
@[simp] theorem State.setReg_regs : (s.setReg d v).regs = s.regs.set d v := rfl
@[simp] theorem State.setReg_pc : (s.setReg d v).pc = s.pc := rfl
@[simp] theorem State.setReg_stack : (s.setReg d v).stack = s.stack := rfl
@[simp] theorem State.setReg_run : (s.setReg d v).run = s.run := rfl
@[simp] theorem State.setReg_out : (s.setReg d v).out = s.out := rfl
@[simp] theorem State.setReg_inp : (s.setReg d v).inp = s.inp := rfl
@[simp] theorem State.setReg_inpEnd : (s.setReg d v).inpEnd = s.inpEnd := rfl

/-! ### `push` -/

@[simp] theorem State.push_mem : (s.push v).mem = s.mem := rfl
@[simp] theorem State.push_regs : (s.push v).regs = s.regs := rfl
@[simp] theorem State.push_pc : (s.push v).pc = s.pc := rfl
@[simp] theorem State.push_stack : (s.push v).stack = s.stack ++ [v] := rfl
@[simp] theorem State.push_run : (s.push v).run = s.run := rfl
@[simp] theorem State.push_out : (s.push v).out = s.out := rfl
@[simp] theorem State.push_inp : (s.push v).inp = s.inp := rfl
@[simp] theorem State.push_inpEnd : (s.push v).inpEnd = s.inpEnd := rfl

/-! ### `emit` -/

@[simp] theorem State.emit_mem : (s.emit v).mem = s.mem := rfl
@[simp] theorem State.emit_regs : (s.emit v).regs = s.regs := rfl
@[simp] theorem State.emit_pc : (s.emit v).pc = s.pc := rfl
@[simp] theorem State.emit_stack : (s.emit v).stack = s.stack := rfl
@[simp] theorem State.emit_run : (s.emit v).run = s.run := rfl
@[simp] theorem State.emit_out : (s.emit v).out = s.out ++ [v] := rfl
@[simp] theorem State.emit_inp : (s.emit v).inp = s.inp := rfl
@[simp] theorem State.emit_inpEnd : (s.emit v).inpEnd = s.inpEnd := rfl

/-! ### `advance` -/

@[simp] theorem State.advance_mem : (s.advance n).mem = s.mem := rfl
@[simp] theorem State.advance_regs : (s.advance n).regs = s.regs := rfl
@[simp] theorem State.advance_pc : (s.advance n).pc = s.pc + BitVec.ofNat 16 n := rfl
@[simp] theorem State.advance_stack : (s.advance n).stack = s.stack := rfl
@[simp] theorem State.advance_run : (s.advance n).run = s.run := rfl
@[simp] theorem State.advance_out : (s.advance n).out = s.out := rfl
@[simp] theorem State.advance_inp : (s.advance n).inp = s.inp := rfl
@[simp] theorem State.advance_inpEnd : (s.advance n).inpEnd = s.inpEnd := rfl

/-! ### `jump` -/

@[simp] theorem State.jump_mem : (s.jump v).mem = s.mem := rfl
@[simp] theorem State.jump_regs : (s.jump v).regs = s.regs := rfl
@[simp] theorem State.jump_pc : (s.jump v).pc = v := rfl
@[simp] theorem State.jump_stack : (s.jump v).stack = s.stack := rfl
@[simp] theorem State.jump_run : (s.jump v).run = s.run := rfl
@[simp] theorem State.jump_out : (s.jump v).out = s.out := rfl
@[simp] theorem State.jump_inp : (s.jump v).inp = s.inp := rfl
@[simp] theorem State.jump_inpEnd : (s.jump v).inpEnd = s.inpEnd := rfl

/-! ### `halt` -/

@[simp] theorem State.halt_mem : (s.halt).mem = s.mem := rfl
@[simp] theorem State.halt_regs : (s.halt).regs = s.regs := rfl
@[simp] theorem State.halt_pc : (s.halt).pc = s.pc := rfl
@[simp] theorem State.halt_stack : (s.halt).stack = s.stack := rfl
@[simp] theorem State.halt_run : (s.halt).run = .haltedNormal := rfl
@[simp] theorem State.halt_out : (s.halt).out = s.out := rfl
@[simp] theorem State.halt_inp : (s.halt).inp = s.inp := rfl
@[simp] theorem State.halt_inpEnd : (s.halt).inpEnd = s.inpEnd := rfl

/-! ### `raise` -/

@[simp] theorem State.raise_mem : (s.raise k).mem = s.mem := rfl
@[simp] theorem State.raise_regs : (s.raise k).regs = s.regs := rfl
@[simp] theorem State.raise_pc : (s.raise k).pc = s.pc := rfl
@[simp] theorem State.raise_stack : (s.raise k).stack = s.stack := rfl
@[simp] theorem State.raise_run : (s.raise k).run = .haltedError k s.pc := rfl
@[simp] theorem State.raise_out : (s.raise k).out = s.out := rfl
@[simp] theorem State.raise_inp : (s.raise k).inp = s.inp := rfl
@[simp] theorem State.raise_inpEnd : (s.raise k).inpEnd = s.inpEnd := rfl

/-! ### The register file -/

theorem RegFile.get_set (f : RegFile) (r : Reg) :
    (f.set d v).get r = if r = d then v else f.get r := by
  cases d <;> cases r <;> rfl

@[simp] theorem RegFile.set_get_self (f : RegFile) : f.set d (f.get d) = f := by
  cases d <;> rfl

@[simp] theorem State.reset_get (r : Reg) : State.reset.regs.get r = 0 := by
  cases r <;> rfl

end Machine

end Sys2Proof
end

