-- ==== Sys2Proof/Laws/Decode.lean ====
section
/-!
SUPPORT. What sorting, taking and encoding one operand word do, said once (spec/30_encoding.md rules R83 and R92), and
the words of a fetch.
-/
namespace Sys2Proof

open Sys2Proof.Machine

/-- A word at most 32767 is a literal. -/
theorem Operand.ofWord_lit {w : Word} (h : w.toNat ≤ 32767) : Operand.ofWord w = .lit (w.setWidth 15) := by
  have hl : w.toNat ≤ Config.litMax := h
  unfold Operand.ofWord
  rw [if_pos hl]

/-- A word 32768 + `K` is register `K`. -/
theorem Operand.ofWord_reg {w : Word} {r : Reg} (h : w.toNat = 32768 + r.index) : Operand.ofWord w = .reg r := by
  have hi : w.toNat - Config.regBase = r.index := by rw [h]; exact Nat.add_sub_cancel_left _ _
  have hl : ¬ w.toNat ≤ Config.litMax := by rw [h]; unfold Config.litMax; omega
  unfold Operand.ofWord
  rw [if_neg hl, hi, Reg.ofIndex?_index]

/-- A word above 32775 is invalid. -/
theorem Operand.ofWord_bad {w : Word} (h : 32775 < w.toNat) : Operand.ofWord w = .bad w := by
  have hi : 8 ≤ w.toNat - Config.regBase := Nat.le_sub_of_add_le (by show 8 + 32768 ≤ _; omega)
  have hl : ¬ w.toNat ≤ Config.litMax := by unfold Config.litMax; omega
  unfold Operand.ofWord
  rw [if_neg hl, Reg.ofIndex?_eq_none.mpr hi]

/-- Every word is one of the three. -/
theorem Operand.ofWord_cases (w : Word) :
    (w.toNat ≤ 32767 ∧ Operand.ofWord w = .lit (w.setWidth 15)) ∨
    (∃ r : Reg, w.toNat = 32768 + r.index ∧ Operand.ofWord w = .reg r) ∨
    (32775 < w.toNat ∧ Operand.ofWord w = .bad w) := by
  by_cases hl : w.toNat ≤ 32767
  · exact .inl ⟨hl, Operand.ofWord_lit hl⟩
  · by_cases hb : 32775 < w.toNat
    · exact .inr (.inr ⟨hb, Operand.ofWord_bad hb⟩)
    · have hr : ∃ r : Reg, r.index = w.toNat - 32768 := by
        cases h : Reg.ofIndex? (w.toNat - 32768) with
        | some r => exact ⟨r, Reg.ofIndex?_eq_some h⟩
        | none => have := Reg.ofIndex?_eq_none.mp h; omega
      obtain ⟨r, hr⟩ := hr
      have hw : w.toNat = 32768 + r.index := by omega
      exact .inr (.inl ⟨r, hw, Operand.ofWord_reg hw⟩)

/-- Sorting a word and encoding what it is gives the word back. -/
theorem Operand.encode_ofWord (w : Word) : (Operand.ofWord w).encode = [w] := by
  rcases Operand.ofWord_cases w with ⟨hw, h⟩ | ⟨r, hw, h⟩ | ⟨hw, h⟩ <;> rw [h] <;> simp only [Operand.encode]
  · have : (w.setWidth 15).setWidth 16 = w := by
      apply BitVec.eq_of_toNat_eq
      simp
      omega
    rw [this]
  · have : BitVec.ofNat 16 (Config.regBase + r.index) = w := by
      apply BitVec.eq_of_toNat_eq
      have := r.index_lt
      rw [BitVec.toNat_ofNat, hw]
      unfold Config.regBase
      omega
    rw [this]

/-- An operand its role accepts is one word, and that word is sorted as the operand. -/
theorem Operand.encode_of_okAs {A : Operand} {ρ : Role} (h : A.okAs ρ = true) :
    ∃ w, A.encode = [w] ∧ Operand.ofWord w = A := by
  cases A with
  | lit n =>
    refine ⟨_, rfl, ?_⟩
    rw [Operand.ofWord_lit (by simp; omega)]
    congr 1
    apply BitVec.eq_of_toNat_eq
    simp
  | reg r =>
    refine ⟨_, rfl, Operand.ofWord_reg ?_⟩
    rw [BitVec.toNat_ofNat]
    have := r.index_lt
    unfold Config.regBase
    omega
  | bad w => cases ρ <;> simp [Operand.okAs] at h
  | beyond => cases ρ <;> simp [Operand.okAs] at h

/-- Taking an operand back from its own words. -/
theorem takeOperand_encode {A : Operand} {ρ : Role} (h : A.okAs ρ = true) (rest : List Word) :
    takeOperand (A.encode ++ rest) = (A, rest) := by
  obtain ⟨w, hw, hA⟩ := Operand.encode_of_okAs h
  rw [hw]
  simp [takeOperand, hA]

/-- Taking an operand consumes exactly its own words. -/
theorem encode_takeOperand (ws : List Word) : (takeOperand ws).1.encode ++ (takeOperand ws).2 = ws := by
  cases ws with
  | nil => rfl
  | cons w ws => simp [takeOperand, Operand.encode_ofWord]

end Sys2Proof
end

