-- ==== Sys2Proof/Laws/Memory.lean ====
section
/-!
SUPPORT. The laws of memory: a read after a write, and that every memory operation keeps the canonical form.
-/
namespace Sys2Proof

@[simp] theorem Config.memWords_eq : Config.memWords = 32768 := rfl

namespace Machine

theorem Memory.read_cons_self (a : Nat) (v : Word) (m : Memory) (h : Memory.read m a = Config.unlistedWord) :
    Memory.read (Memory.cons a v m) a = v := by
  unfold Memory.cons
  split
  · simp_all
  · simp [Memory.read]

theorem Memory.read_cons_ne {a b : Nat} (v : Word) (m : Memory) (h : b ≠ a) :
    Memory.read (Memory.cons a v m) b = Memory.read m b := by
  unfold Memory.cons
  split
  · rfl
  · simp [Memory.read, h]

/-- An address below every listed one reads as an unlisted one. -/
theorem Memory.read_of_lt {m : Memory} {a : Nat} (h : ∀ c ∈ m, a < c.1) :
    Memory.read m a = Config.unlistedWord := by
  induction m with
  | nil => rfl
  | cons c m ih =>
    have hc := h c (by simp)
    simp [Memory.read, Nat.ne_of_lt hc, ih fun x hx => h x (by simp [hx])]

/-- Another address reads as before, whatever the memory's form. -/
theorem Memory.read_write_ne (m : Memory) {a b : Nat} (v : Word) (h : b ≠ a) :
    Memory.read (Memory.write m a v) b = Memory.read m b := by
  induction m with
  | nil => exact Memory.read_cons_ne v [] h
  | cons c m ih =>
    unfold Memory.write
    split
    · exact Memory.read_cons_ne v _ h
    · split
      · next hac => subst hac; simp [Memory.read_cons_ne v m h, Memory.read, h]
      · simp [Memory.read, ih]

/-- In the canonical form the written address reads as the written word. -/
theorem Memory.read_write_self (m : Memory) (a : Nat) (v : Word) (h : Memory.wf m) :
    Memory.read (Memory.write m a v) a = v := by
  induction m with
  | nil => exact Memory.read_cons_self a v [] rfl
  | cons c m ih =>
    obtain ⟨hp, hm⟩ := h
    rw [List.pairwise_cons] at hp
    unfold Memory.write
    split
    · next hlt =>
      refine Memory.read_cons_self a v _ (Memory.read_of_lt fun x hx => ?_)
      rcases List.mem_cons.mp hx with rfl | hx
      · exact hlt
      · exact Nat.lt_trans hlt (hp.1 x hx)
    · split
      · next hac => subst hac; exact Memory.read_cons_self _ v m (Memory.read_of_lt hp.1)
      · next hac =>
        simp [Memory.read, hac, ih ⟨hp.2, fun x hx => hm x (by simp [hx])⟩]

/-- Every entry of a written memory is an old one or the written one. -/
theorem Memory.mem_write {m : Memory} {a : Nat} {v : Word} {c : Nat × Word} (h : c ∈ Memory.write m a v) :
    c ∈ m ∨ (c = (a, v) ∧ v ≠ Config.unlistedWord) := by
  have hcons : ∀ m' : Memory, c ∈ Memory.cons a v m' → c ∈ m' ∨ (c = (a, v) ∧ v ≠ Config.unlistedWord) := by
    intro m' h'
    unfold Memory.cons at h'
    split at h'
    · exact .inl h'
    · next hv => rcases List.mem_cons.mp h' with h' | h' <;> simp [h', hv]
  induction m with
  | nil => simpa using hcons [] h
  | cons d m ih =>
    unfold Memory.write at h
    split at h
    · exact hcons _ h
    · split at h
      · rcases hcons m h with h' | h' <;> simp [h']
      · rcases List.mem_cons.mp h with rfl | h'
        · simp
        · rcases ih h' with h'' | h'' <;> simp [h'']

/-- A write to an address of the machine keeps the canonical form. -/
theorem Memory.wf_write {m : Memory} {a : Nat} (v : Word) (h : Memory.wf m) (ha : a < Config.memWords) :
    Memory.wf (Memory.write m a v) := by
  refine ⟨?_, fun c hc => ?_⟩
  · obtain ⟨hp, -⟩ := h
    have hcons : ∀ m' : Memory, m'.Pairwise (fun x y => x.1 < y.1) → (∀ c ∈ m', a < c.1) →
        (Memory.cons a v m').Pairwise (fun x y => x.1 < y.1) := by
      intro m' hm' hlt
      unfold Memory.cons
      split
      · exact hm'
      · exact List.pairwise_cons.mpr ⟨hlt, hm'⟩
    induction m with
    | nil => exact hcons [] List.Pairwise.nil (by simp)
    | cons d m ih =>
      have hp' := List.pairwise_cons.mp hp
      unfold Memory.write
      split
      · next hlt =>
        refine hcons _ hp fun x hx => ?_
        rcases List.mem_cons.mp hx with rfl | hx
        · exact hlt
        · exact Nat.lt_trans hlt (hp'.1 x hx)
      · split
        · next had => subst had; exact hcons _ hp'.2 hp'.1
        · refine List.pairwise_cons.mpr ⟨fun x hx => ?_, ih hp'.2⟩
          rcases Memory.mem_write hx with hx | ⟨rfl, -⟩
          · exact hp'.1 x hx
          · simp only
            omega
  · rcases Memory.mem_write hc with hc | ⟨rfl, hv⟩
    · exact h.2 c hc
    · exact ⟨ha, hv⟩

/-- A successful `memWrite` writes one word and keeps the canonical form. -/
theorem memWrite_eq_ok {m m' : Memory} {a : Nat} {v : Word} :
    memWrite m a v = .ok m' ↔ a < 32768 ∧ m' = Memory.write m a v := by
  have hw : Config.memWords = 32768 := rfl
  unfold memWrite
  split <;> simp [eq_comm] <;> omega

/-- `memRead` succeeds exactly below 32768. -/
theorem memRead_eq_ok {m : Memory} {a : Nat} {v : Word} :
    memRead m a = .ok v ↔ a < 32768 ∧ Memory.read m a = v := by
  have hw : Config.memWords = 32768 := rfl
  unfold memRead
  split <;> simp [eq_comm] <;> omega

theorem memRead_eq_error {m : Memory} {a : Nat} {e : ErrorKind} :
    memRead m a = .error e ↔ 32768 ≤ a ∧ e = .invalidAddress := by
  have hw : Config.memWords = 32768 := rfl
  unfold memRead
  split <;> simp [eq_comm] <;> omega

theorem memWrite_eq_error {m : Memory} {a : Nat} {v : Word} {e : ErrorKind} :
    memWrite m a v = .error e ↔ 32768 ≤ a ∧ e = .invalidAddress := by
  have hw : Config.memWords = 32768 := rfl
  unfold memWrite
  split <;> simp [eq_comm] <;> omega

/-- The four cases as equations. -/
theorem memRead_of_lt (m : Memory) {a : Nat} (h : a < 32768) : memRead m a = .ok (Memory.read m a) :=
  if_pos h

theorem memRead_of_ge (m : Memory) {a : Nat} (h : 32768 ≤ a) : memRead m a = .error .invalidAddress :=
  if_neg (Nat.not_lt.mpr h)

theorem memWrite_of_lt (m : Memory) {a : Nat} (v : Word) (h : a < 32768) :
    memWrite m a v = .ok (Memory.write m a v) :=
  if_pos h

theorem memWrite_of_ge (m : Memory) {a : Nat} (v : Word) (h : 32768 ≤ a) :
    memWrite m a v = .error .invalidAddress :=
  if_neg (Nat.not_lt.mpr h)

theorem memWrite_wf {m m' : Memory} {a : Nat} {v : Word} (h : Memory.wf m) (hw : memWrite m a v = .ok m') :
    Memory.wf m' := by
  obtain ⟨ha, rfl⟩ := memWrite_eq_ok.mp hw
  exact Memory.wf_write v h ha

/-- Placing words keeps the canonical form. -/
theorem placeWords_wf (ws : List Word) {m : Memory} (a : Nat) (h : Memory.wf m) : Memory.wf (placeWords m a ws) := by
  induction ws generalizing m a with
  | nil => exact h
  | cons w ws ih =>
    unfold placeWords
    split
    · next ha => exact ih _ (Memory.wf_write w h ha)
    · exact ih _ h

theorem State.reset_mem_wf : Memory.wf State.reset.mem := by
  simp [State.reset, Memory.wf]

end Machine

end Sys2Proof
end

