-- ==== Sys2Proof/Laws/Ops.lean ====
section
/-!
SUPPORT. What each shared operation can do, said once: checks and errors, the operand phase, the stack, the input
source, the values.
-/
namespace Sys2Proof.Machine

open Host (Outcome)

/-! ### Checks -/

@[simp] theorem orRaise_ok {α : Type} (s : State) (v : α) (k : α → Outcome State Fault Refusal) :
    orRaise s (.ok v) k = k v := rfl

@[simp] theorem orRaise_error {α : Type} (s : State) (e : ErrorKind) (k : α → Outcome State Fault Refusal) :
    orRaise s (.error e) k = .next (s.raise e) := rfl

/-- A checked action that gives a next state either passed its check and went on, or took the error of the check. -/
theorem orRaise_eq_next {α : Type} {s t : State} {x : Except ErrorKind α} {k : α → Outcome State Fault Refusal} :
    orRaise s x k = .next t ↔ (∃ v, x = .ok v ∧ k v = .next t) ∨ ∃ e, x = .error e ∧ t = s.raise e := by
  cases x <;> simp [eq_comm]

/-! ### Operands -/

@[simp] theorem dest_reg (r : Reg) : dest (.reg r) = .ok r := rfl

/-- Only a register reference is a destination. -/
theorem dest_eq_ok {A : Operand} {d : Reg} : dest A = .ok d ↔ A = .reg d := by
  cases A <;> simp [dest]

/-- Only a literal or a register reference has a value, and its value is the literal or the register's content. -/
theorem resolve_eq_ok {s : State} {A : Operand} {v : Word} :
    resolve s A = .ok v ↔ (∃ n : BitVec 15, A = .lit n ∧ v = n.setWidth 16) ∨ ∃ r, A = .reg r ∧ v = s.regs.get r := by
  cases A <;> simp [resolve, eq_comm]

/-- The resolver depends on the registers alone. -/
theorem resolve_congr {s t : State} (h : s.regs = t.regs) (A : Operand) : resolve s A = resolve t A := by
  cases A <;> simp [resolve, h]

/-- Neither check of an operand raises the register file's own error. -/
theorem dest_error {A : Operand} {e : ErrorKind} (h : dest A = .error e) : e = .invalidOperand ∨ e = .invalidAddress := by
  cases A <;> simp_all [dest]

theorem resolve_error {s : State} {A : Operand} {e : ErrorKind} (h : resolve s A = .error e) :
    e = .invalidOperand ∨ e = .invalidAddress := by
  cases A <;> simp_all [resolve]

/-! ### Stack -/

@[simp] theorem State.pop_push (s : State) (v : Word) : (s.push v).pop = .ok (v, s) := by
  simp [State.pop, State.push]

/-- `Pop` takes the last element and nothing else. -/
theorem State.pop_eq_ok {s t : State} {v : Word} :
    s.pop = .ok (v, t) ↔ s.stack = t.stack ++ [v] ∧ t = { s with stack := t.stack } := by
  unfold State.pop
  cases h : s.stack.getLast? with
  | none =>
    have : s.stack = [] := by simpa using h
    simp [this]
  | some w =>
    obtain ⟨l, hl⟩ := List.getLast?_eq_some_iff.mp h
    cases s; cases t
    simp_all
    constructor <;> (intro h; simp_all)

theorem State.pop_eq_error {s : State} {e : ErrorKind} :
    s.pop = .error e ↔ s.stack = [] ∧ e = .stackUnderflow := by
  unfold State.pop
  cases h : s.stack.getLast? with
  | none =>
    have : s.stack = [] := by simpa using h
    simp [this, eq_comm]
  | some w =>
    obtain ⟨l, hl⟩ := List.getLast?_eq_some_iff.mp h
    simp [hl]

/-! ### Input -/

/-- The three answers of the input source (R164). -/
theorem State.takeInput_code {s : State} {c : Byte} {rest : List Byte} (h : s.inp = c :: rest) :
    s.takeInput = .ok (some (c, { s with inp := rest })) := by
  simp [State.takeInput, h]

theorem State.takeInput_hold {s : State} (h : s.inp = []) (he : s.inpEnd = false) : s.takeInput = .ok none := by
  simp [State.takeInput, h, he]

theorem State.takeInput_ended {s : State} (h : s.inp = []) (he : s.inpEnd = true) :
    s.takeInput = .error .inputExhausted := by
  simp [State.takeInput, h, he]

theorem State.takeInput_eq_some {s t : State} {c : Byte} :
    s.takeInput = .ok (some (c, t)) ↔ s.inp = c :: t.inp ∧ t = { s with inp := t.inp } := by
  unfold State.takeInput
  cases s; cases t
  rename_i inp e _ _ _ _ _ _ _ _
  cases inp <;> cases e <;> simp <;> constructor <;> (intro h; simp_all)

theorem State.takeInput_eq_error {s : State} {e : ErrorKind} (h : s.takeInput = .error e) : e = .inputExhausted := by
  unfold State.takeInput at h
  split at h <;> simp_all

/-! ### Values -/

theorem addValue_toNat (b c : Word) : (addValue b c).toNat = (b.toNat + c.toNat) % 32768 := by
  simp only [addValue, Config.modulus, BitVec.toNat_ofNat]
  omega

theorem multValue_toNat (b c : Word) : (multValue b c).toNat = (b.toNat * c.toNat) % 32768 := by
  simp only [multValue, Config.modulus, BitVec.toNat_ofNat]
  omega

theorem notValue_toNat (b : Word) : (notValue b).toNat = (65535 - b.toNat) % 32768 := by
  show (65535 - b.toNat) % 32768 % 2 ^ 16 = _
  omega

theorem modValue_eq_ok {b c v : Word} : modValue b c = .ok v ↔ c ≠ 0 ∧ v.toNat = b.toNat % c.toNat := by
  unfold modValue
  split
  · simp_all
  · next hc =>
    have h : b.toNat % c.toNat < 65536 := Nat.lt_of_le_of_lt (Nat.mod_le _ _) b.isLt
    simp only [Except.ok.injEq, hc, ne_eq, not_false_eq_true, true_and, ← BitVec.toNat_inj, BitVec.toNat_ofNat]
    omega

theorem modValue_eq_error {b c : Word} {e : ErrorKind} : modValue b c = .error e ↔ c = 0 ∧ e = .divisionByZero := by
  unfold modValue
  by_cases hc : c = 0
  · simpa [hc] using eq_comm
  · rw [if_neg hc]
    exact ⟨fun h => (nomatch h), fun h => absurd h.1 hc⟩

/-! ### Steps -/

/-- A step gives a next state only from `Running`: the error of the fetch, or the outcome of the fetched instruction. -/
theorem step_eq_next {s t : State} (h : step s = .next t) :
    s.run = .running ∧ ((∃ i, fetch s = .ok i ∧ exec i s = .next t) ∨ ∃ e, fetch s = .error e ∧ t = s.raise e) := by
  unfold step at h
  split at h
  · next hr => exact ⟨hr, orRaise_eq_next.mp h⟩
  · cases h
  · cases h

theorem step_running {s : State} (h : s.run = .running) : step s = orRaise s (fetch s) fun i => exec i s := by
  simp [step, h]

/-- The fetch fails only in its two ways. -/
theorem fetch_error {s : State} {e : ErrorKind} (h : fetch s = .error e) : e = .invalidAddress ∨ e = .invalidOpcode := by
  unfold fetch at h
  split at h <;> simp_all

end Sys2Proof.Machine
end

