-- ==== Sys2Proof/Laws/Effect.lean ====
section
/-!
SUPPORT. What an instruction can do, said once: a next state of `exec` is the state with an error taken, or the state with
the instruction's own effect, its operands resolved. Frames and invariants are cases over this.
-/
namespace Sys2Proof.Machine

/-- The states an instruction can lead to from `s`. -/
inductive Effect (s : State) : Instr → State → Prop where
  | raise {i k} (hk : k ≠ .registerIndexOutOfRange) (hi : i ≠ .halt) (hn : i ≠ .noop) : Effect s i (s.raise k)
  | halt : Effect s .halt s.halt
  | set {A B d b} : dest A = .ok d → resolve s B = .ok b → Effect s (.set A B) ((s.setReg d b).advance 3)
  | push {A a} : resolve s A = .ok a → Effect s (.push A) ((s.push a).advance 2)
  | pop {A d v u} : dest A = .ok d → s.pop = .ok (v, u) → Effect s (.pop A) ((u.setReg d v).advance 2)
  | eq {A B C d b c} : dest A = .ok d → resolve s B = .ok b → resolve s C = .ok c →
      Effect s (.eq A B C) ((s.setReg d (eqFlag b c)).advance 4)
  | gt {A B C d b c} : dest A = .ok d → resolve s B = .ok b → resolve s C = .ok c →
      Effect s (.gt A B C) ((s.setReg d (gtFlag b c)).advance 4)
  | jmp {A a} : resolve s A = .ok a → Effect s (.jmp A) (s.jump a)
  | jt {A B a b} : resolve s A = .ok a → resolve s B = .ok b →
      Effect s (.jt A B) (if isNonzero a then s.jump b else s.advance 3)
  | jf {A B a b} : resolve s A = .ok a → resolve s B = .ok b →
      Effect s (.jf A B) (if isNonzero a then s.advance 3 else s.jump b)
  | add {A B C d b c} : dest A = .ok d → resolve s B = .ok b → resolve s C = .ok c →
      Effect s (.add A B C) ((s.setReg d (addValue b c)).advance 4)
  | mult {A B C d b c} : dest A = .ok d → resolve s B = .ok b → resolve s C = .ok c →
      Effect s (.mult A B C) ((s.setReg d (multValue b c)).advance 4)
  | mod {A B C d b c v} : dest A = .ok d → resolve s B = .ok b → resolve s C = .ok c → modValue b c = .ok v →
      Effect s (.mod A B C) ((s.setReg d v).advance 4)
  | and {A B C d b c} : dest A = .ok d → resolve s B = .ok b → resolve s C = .ok c →
      Effect s (.and A B C) ((s.setReg d (andValue b c)).advance 4)
  | or {A B C d b c} : dest A = .ok d → resolve s B = .ok b → resolve s C = .ok c →
      Effect s (.or A B C) ((s.setReg d (orValue b c)).advance 4)
  | not {A B d b} : dest A = .ok d → resolve s B = .ok b → Effect s (.not A B) ((s.setReg d (notValue b)).advance 3)
  | rmem {A B d b v} : dest A = .ok d → resolve s B = .ok b → memRead s.mem b.toNat = .ok v →
      Effect s (.rmem A B) ((s.setReg d v).advance 3)
  | wmem {A B a b m} : resolve s A = .ok a → resolve s B = .ok b → memWrite s.mem a.toNat b = .ok m →
      Effect s (.wmem A B) ({ s with mem := m }.advance 3)
  | call {A a} : resolve s A = .ok a → Effect s (.call A) ((s.push (s.pc + 2)).jump a)
  | ret {v u} : s.pop = .ok (v, u) → Effect s .ret (u.jump v)
  | out {A a} : resolve s A = .ok a → Effect s (.out A) ((s.emit a).advance 2)
  | input {A d c u} : dest A = .ok d → s.takeInput = .ok (some (c, u)) →
      Effect s (.input A) ((u.setReg d (c.setWidth 16)).advance 2)
  | noop : Effect s .noop (s.advance 1)

/-- A check that raises none but the operand phase's errors. -/
theorem dest_error_ne {A : Operand} {e : ErrorKind} (h : dest A = .error e) : e ≠ .registerIndexOutOfRange := by
  rcases dest_error h with rfl | rfl <;> simp

theorem resolve_error_ne {s : State} {A : Operand} {e : ErrorKind} (h : resolve s A = .error e) :
    e ≠ .registerIndexOutOfRange := by
  rcases resolve_error h with rfl | rfl <;> simp

/-- Going through the checks of an instruction one at a time: an error is an effect, and what passes goes on. -/
theorem Effect.of_orRaise {α : Type} {s t : State} {i : Instr} {x : Except ErrorKind α}
    {k : α → Host.Outcome State Fault Refusal} (h : orRaise s x k = .next t) (hi : i ≠ .halt) (hn : i ≠ .noop)
    (herr : ∀ e, x = .error e → e ≠ .registerIndexOutOfRange)
    (hok : ∀ v, x = .ok v → k v = .next t → Effect s i t) : Effect s i t := by
  rcases orRaise_eq_next.mp h with ⟨v, hv, hk⟩ | ⟨e, he, rfl⟩
  · exact hok v hv hk
  · exact .raise (herr e he) hi hn

theorem pop_error_ne {s : State} {e : ErrorKind} (h : s.pop = .error e) : e ≠ .registerIndexOutOfRange := by
  rw [(State.pop_eq_error.mp h).2]; simp

theorem takeInput_error_ne {s : State} {e : ErrorKind} (h : s.takeInput = .error e) : e ≠ .registerIndexOutOfRange := by
  rw [State.takeInput_eq_error h]; simp

theorem modValue_error_ne {b c : Word} {e : ErrorKind} (h : modValue b c = .error e) :
    e ≠ .registerIndexOutOfRange := by
  rw [(modValue_eq_error.mp h).2]; simp

theorem memRead_error_ne {m : Memory} {a : Nat} {e : ErrorKind} (h : memRead m a = .error e) :
    e ≠ .registerIndexOutOfRange := by
  rw [(memRead_eq_error.mp h).2]; simp

theorem memWrite_error_ne {m : Memory} {a : Nat} {v : Word} {e : ErrorKind} (h : memWrite m a v = .error e) :
    e ≠ .registerIndexOutOfRange := by
  rw [(memWrite_eq_error.mp h).2]; simp

section Shapes

variable {s t : State} {i : Instr} {A B C : Operand}

/-- Shape `D`: the destination check, then the effect. -/
theorem Effect.of_dest {k : Reg → Host.Outcome State Fault Refusal} (h : orRaise s (dest A) k = .next t)
    (hi : i ≠ .halt) (hn : i ≠ .noop) (hok : ∀ d, dest A = .ok d → k d = .next t → Effect s i t) : Effect s i t :=
  .of_orRaise h hi hn (fun _ => dest_error_ne) hok

/-- Shape `S`: the source check, then the effect. -/
theorem Effect.of_resolve {k : Word → Host.Outcome State Fault Refusal} (h : orRaise s (resolve s A) k = .next t)
    (hi : i ≠ .halt) (hn : i ≠ .noop) (hok : ∀ a, resolve s A = .ok a → k a = .next t → Effect s i t) :
    Effect s i t :=
  .of_orRaise h hi hn (fun _ => resolve_error_ne) hok

end Shapes

/-- A next state of `exec` is an effect of the instruction. -/
theorem exec_effect {i : Instr} {s t : State} (h : exec i s = .next t) : Effect s i t := by
  have hd : ∀ {A : Operand} {k : Reg → Host.Outcome State Fault Refusal}, i ≠ .halt → i ≠ .noop →
      orRaise s (dest A) k = .next t → (∀ d, dest A = .ok d → k d = .next t → Effect s i t) → Effect s i t :=
    fun hi hn h hok => .of_dest h hi hn hok
  have hr : ∀ {A : Operand} {k : Word → Host.Outcome State Fault Refusal}, i ≠ .halt → i ≠ .noop →
      orRaise s (resolve s A) k = .next t → (∀ a, resolve s A = .ok a → k a = .next t → Effect s i t) →
      Effect s i t :=
    fun hi hn h hok => .of_resolve h hi hn hok
  cases i with
  | halt => cases h; exact .halt
  | noop => cases h; exact .noop
  | set A B => exact hd nofun nofun h fun d hA h => hr nofun nofun h fun b hB h => by cases h; exact .set hA hB
  | push A => exact hr nofun nofun h fun a hA h => by cases h; exact .push hA
  | pop A =>
    exact hd nofun nofun h fun d hA h =>
      .of_orRaise h nofun nofun (fun _ => pop_error_ne) fun (v, u) hp h => by cases h; exact .pop hA hp
  | eq A B C =>
    exact hd nofun nofun h fun d hA h => hr nofun nofun h fun b hB h => hr nofun nofun h fun c hC h => by
      cases h; exact .eq hA hB hC
  | gt A B C =>
    exact hd nofun nofun h fun d hA h => hr nofun nofun h fun b hB h => hr nofun nofun h fun c hC h => by
      cases h; exact .gt hA hB hC
  | jmp A => exact hr nofun nofun h fun a hA h => by cases h; exact .jmp hA
  | jt A B => exact hr nofun nofun h fun a hA h => hr nofun nofun h fun b hB h => by cases h; exact .jt hA hB
  | jf A B => exact hr nofun nofun h fun a hA h => hr nofun nofun h fun b hB h => by cases h; exact .jf hA hB
  | add A B C =>
    exact hd nofun nofun h fun d hA h => hr nofun nofun h fun b hB h => hr nofun nofun h fun c hC h => by
      cases h; exact .add hA hB hC
  | mult A B C =>
    exact hd nofun nofun h fun d hA h => hr nofun nofun h fun b hB h => hr nofun nofun h fun c hC h => by
      cases h; exact .mult hA hB hC
  | mod A B C =>
    exact hd nofun nofun h fun d hA h => hr nofun nofun h fun b hB h => hr nofun nofun h fun c hC h =>
      .of_orRaise h nofun nofun (fun _ => modValue_error_ne) fun v hv h => by cases h; exact .mod hA hB hC hv
  | and A B C =>
    exact hd nofun nofun h fun d hA h => hr nofun nofun h fun b hB h => hr nofun nofun h fun c hC h => by
      cases h; exact .and hA hB hC
  | or A B C =>
    exact hd nofun nofun h fun d hA h => hr nofun nofun h fun b hB h => hr nofun nofun h fun c hC h => by
      cases h; exact .or hA hB hC
  | not A B => exact hd nofun nofun h fun d hA h => hr nofun nofun h fun b hB h => by cases h; exact .not hA hB
  | rmem A B =>
    exact hd nofun nofun h fun d hA h => hr nofun nofun h fun b hB h =>
      .of_orRaise h nofun nofun (fun _ => memRead_error_ne) fun v hv h => by cases h; exact .rmem hA hB hv
  | wmem A B =>
    exact hr nofun nofun h fun a hA h => hr nofun nofun h fun b hB h =>
      .of_orRaise h nofun nofun (fun _ => memWrite_error_ne) fun m hm h => by cases h; exact .wmem hA hB hm
  | call A => exact hr nofun nofun h fun a hA h => by cases h; exact .call hA
  | ret => exact .of_orRaise h nofun nofun (fun _ => pop_error_ne) fun (v, u) hp h => by cases h; exact .ret hp
  | out A => exact hr nofun nofun h fun a hA h => by cases h; exact .out hA
  | input A =>
    exact hd nofun nofun h fun d hA h =>
      .of_orRaise h nofun nofun (fun _ => takeInput_error_ne) fun
        | some (c, u), hv, h => by cases h; exact .input hA hv
        | none, _, h => nomatch h

end Sys2Proof.Machine
end

