-- ==== Sys2Proof/Laws/Fetch.lean ====
section
/-!
SUPPORT. What fetching words from memory gives.
-/
namespace Sys2Proof.Machine

/-- Below 32768 the first fetched word is the word there. -/
theorem fetchWords_succ {m : Memory} {a : Nat} (n : Nat) (h : a < 32768) :
    fetchWords m a (n + 1) = Memory.read m a :: fetchWords m (a + 1) n := by
  simp [fetchWords, memRead_eq_ok.mpr ⟨h, rfl⟩]

/-- Above 32767 nothing is fetched. -/
theorem fetchWords_above {m : Memory} {a : Nat} (n : Nat) (h : 32768 ≤ a) : fetchWords m a n = [] := by
  cases n with
  | zero => rfl
  | succ n => simp [fetchWords, memRead_eq_error.mpr ⟨h, rfl⟩]

theorem fetchWords_length_le (m : Memory) (a n : Nat) : (fetchWords m a n).length ≤ n := by
  induction n generalizing a with
  | zero => simp [fetchWords]
  | succ n ih =>
    unfold fetchWords
    split
    · simp [ih]
    · simp

/-- Words that stand in memory one after another are what a fetch of them gives first. -/
theorem fetchWords_prefix (ws : List Word) {m : Memory} {a n : Nat} (hn : ws.length ≤ n)
    (h : ∀ k, (hk : k < ws.length) → memRead m (a + k) = .ok ws[k]) :
    ∃ rest, fetchWords m a n = ws ++ rest := by
  induction ws generalizing a n with
  | nil => exact ⟨_, rfl⟩
  | cons w ws ih =>
    obtain ⟨n, rfl⟩ : ∃ k, n = k + 1 := ⟨n - 1, by simp at hn; omega⟩
    have h0 := h 0 (by simp)
    have hs : ∀ k, (hk : k < ws.length) → memRead m (a + 1 + k) = .ok ws[k] := fun k hk => by
      have := h (k + 1) (by simpa using hk)
      simpa [Nat.add_assoc, Nat.add_comm 1 k] using this
    obtain ⟨rest, hrest⟩ := ih (n := n) (by simpa using hn) hs
    exact ⟨rest, by simp only [Nat.add_zero] at h0; simp [fetchWords, h0, hrest]⟩

/-- The fetch decodes the words at the program counter. -/
theorem fetch_of_decode {s : State} {i : Instr} {rest : List Word}
    (h : decode (fetchWords s.mem s.pc.toNat 4) = .ok (i, rest)) : fetch s = .ok i := by
  simp [fetch, h]

theorem decode_of_fetch {s : State} {i : Instr} (h : fetch s = .ok i) :
    ∃ rest, decode (fetchWords s.mem s.pc.toNat 4) = .ok (i, rest) := by
  unfold fetch at h
  split at h
  · next rest hd => cases h; exact ⟨rest, hd⟩
  · cases h
  · cases h

/-- The fetch reads memory and the program counter alone. -/
theorem fetch_congr {s t : State} (hm : s.mem = t.mem) (hp : s.pc = t.pc) : fetch s = fetch t := by
  simp [fetch, hm, hp]

/-- Placed words read back; the addresses before them read as they did. -/
theorem read_placeWords_before (ws : List Word) {m : Memory} {a b : Nat} (h : b < a) :
    Memory.read (placeWords m a ws) b = Memory.read m b := by
  induction ws generalizing m a with
  | nil => rfl
  | cons w ws ih =>
    unfold placeWords
    rw [ih (by omega)]
    split
    · exact Memory.read_write_ne m w (by omega)
    · rfl

theorem read_placeWords_after (ws : List Word) {m : Memory} {a b : Nat} (h : a + ws.length ≤ b) :
    Memory.read (placeWords m a ws) b = Memory.read m b := by
  induction ws generalizing m a with
  | nil => rfl
  | cons w ws ih =>
    simp only [List.length_cons] at h
    unfold placeWords
    rw [ih (by omega)]
    split
    · exact Memory.read_write_ne m w (by omega)
    · rfl

theorem read_placeWords (ws : List Word) {m : Memory} {a k : Nat} (hm : Memory.wf m) (hk : k < ws.length)
    (ha : a + k < 32768) : Memory.read (placeWords m a ws) (a + k) = ws[k] := by
  induction ws generalizing m a k with
  | nil => simp at hk
  | cons w ws ih =>
    have ha0 : a < Config.memWords := by show a < 32768; omega
    unfold placeWords
    rw [if_pos ha0]
    cases k with
    | zero => simpa [read_placeWords_before ws (Nat.lt_succ_self a)] using Memory.read_write_self m a w hm
    | succ k =>
      have := ih (a := a + 1) (k := k) (Memory.wf_write w hm ha0) (by simpa using hk) (by omega)
      simpa [Nat.add_assoc, Nat.add_comm 1 k] using this

end Sys2Proof.Machine
end

