-- ==== Sys2Proof/Laws/Operands.lean ====
section
/-!
SUPPORT. The checks of one operand and the errors `Operand.fault` lists are the same.
-/
namespace Sys2Proof.Machine

/-- A source operand has a value, or raises the error listed for it. -/
theorem resolve_cases (s : State) (A : Operand) :
    (∃ v, resolve s A = .ok v ∧ A.fault .src = none ∧ A.okAs .src = true) ∨
    ∃ e, resolve s A = .error e ∧ A.fault .src = some e ∧ A.okAs .src = false := by
  cases A <;> simp [resolve, Operand.fault, Operand.okAs]

/-- A destination operand names a register, or raises the error listed for it. -/
theorem dest_cases (A : Operand) :
    (∃ d, dest A = .ok d ∧ A.fault .dst = none ∧ A.okAs .dst = true) ∨
    ∃ e, dest A = .error e ∧ A.fault .dst = some e ∧ A.okAs .dst = false := by
  cases A <;> simp [dest, Operand.fault, Operand.okAs]

end Sys2Proof.Machine
end

