-- ==== Sys2Proof/Laws/PerInstr.lean ====
section
/-!
SUPPORT. Statements made per instruction. `EncodeLength`: a well-formed instruction encodes to as many words as its length,
the opcode word and one word per operand (spec/30_encoding.md rule R80).
-/
namespace Sys2Proof.Laws.EncodeLength

open Sys2Proof

/-- The words of a well-formed instruction are as many as its length. -/
def Statement (i : Instr) : Prop :=
  i.wellFormed = true → i.encode.length = i.length

theorem of_roles {i : Instr} : Statement i := by
  intro h
  have hsum : ∀ l : List (Role × Operand), (l.all fun p => p.2.okAs p.1) = true →
      ((l.map Prod.snd).flatMap Operand.encode).length = l.length := by
    intro l hl
    induction l with
    | nil => rfl
    | cons p l ih =>
      simp only [List.all_cons, Bool.and_eq_true] at hl
      obtain ⟨w, hw, -⟩ := Operand.encode_of_okAs hl.1
      simp [hw, ih hl.2]
  have := hsum i.roles h
  simp only [Instr.encode, Instr.length, Instr.operands, List.length_cons, List.length_map] at this ⊢
  omega

theorem halt : Statement .halt := of_roles
theorem set (A B : Operand) : Statement (.set A B) := of_roles
theorem push (A : Operand) : Statement (.push A) := of_roles
theorem pop (A : Operand) : Statement (.pop A) := of_roles
theorem eq (A B C : Operand) : Statement (.eq A B C) := of_roles
theorem gt (A B C : Operand) : Statement (.gt A B C) := of_roles
theorem jmp (A : Operand) : Statement (.jmp A) := of_roles
theorem jt (A B : Operand) : Statement (.jt A B) := of_roles
theorem jf (A B : Operand) : Statement (.jf A B) := of_roles
theorem add (A B C : Operand) : Statement (.add A B C) := of_roles
theorem mult (A B C : Operand) : Statement (.mult A B C) := of_roles
theorem mod (A B C : Operand) : Statement (.mod A B C) := of_roles
theorem and (A B C : Operand) : Statement (.and A B C) := of_roles
theorem or (A B C : Operand) : Statement (.or A B C) := of_roles
theorem not (A B : Operand) : Statement (.not A B) := of_roles
theorem rmem (A B : Operand) : Statement (.rmem A B) := of_roles
theorem wmem (A B : Operand) : Statement (.wmem A B) := of_roles
theorem call (A : Operand) : Statement (.call A) := of_roles
theorem ret : Statement .ret := of_roles
theorem out (A : Operand) : Statement (.out A) := of_roles
theorem input (A : Operand) : Statement (.input A) := of_roles
theorem noop : Statement .noop := of_roles

end Sys2Proof.Laws.EncodeLength
end

