-- ==== Sys2Proof/Tests/Slice0.lean ====
section
/-!
SUPPORT. Tests. Expected results are the vectors of spec/95_test_vectors.md (named in each comment) or words written out from
spec/30_encoding.md; and, for every statement with hypotheses, a concrete state and operands that meet them.
-/
namespace Sys2Proof.Tests

open Host (Outcome)
open Sys2Proof.Machine

/-- The next state of an outcome, if it is one. -/
def after : Outcome State Fault Refusal → Option State
  | .next s => some s
  | .fault _ => none
  | .refused _ => none

/-- A machine with an image from address 0, reset, with no input (the conventions of spec/95_test_vectors.md). -/
def boot (image : List Word) : State :=
  State.resetWith image [] true

/-- `boot` with some registers set. -/
def bootRegs (image : List Word) (x0 x1 : Word) : State :=
  ((boot image).setReg .r0 x0).setReg .r1 x1

/-! ### Well-formedness: an ill-formed term for each check -/

theorem test_wf_accepts : (Instr.add (.reg .r0) (.lit 4) (.reg .r7)).wellFormed = true := by decide
theorem test_wf_literal_destination : (Instr.set (.lit 5) (.lit 1)).wellFormed = false := by decide
theorem test_wf_bad_destination : (Instr.pop (.bad 32776)).wellFormed = false := by decide
theorem test_wf_beyond_destination : (Instr.input .beyond).wellFormed = false := by decide
theorem test_wf_bad_source : (Instr.add (.reg .r0) (.lit 1) (.bad 65535)).wellFormed = false := by decide
theorem test_wf_beyond_source : (Instr.jmp .beyond).wellFormed = false := by decide

/-! ### Decoding: a word for every constructor, written from R82, R83 and R85 -/

theorem test_decode_halt : decode [0b0000000000000000] = .ok (.halt, []) := rfl
theorem test_decode_set :
    decode [0b0000000000000001, 0b1000000000000001, 0b0000000000010111] = .ok (.set (.reg .r1) (.lit 23), []) := rfl
theorem test_decode_push : decode [0b0000000000000010, 0b0111111111111111] = .ok (.push (.lit 32767), []) := rfl
theorem test_decode_pop : decode [0b0000000000000011, 0b1000000000000010] = .ok (.pop (.reg .r2), []) := rfl
theorem test_decode_eq :
    decode [0b0000000000000100, 0b1000000000000011, 0b1000000000000100, 0b0000000000000101] =
      .ok (.eq (.reg .r3) (.reg .r4) (.lit 5), []) := rfl
theorem test_decode_gt :
    decode [0b0000000000000101, 0b1000000000000000, 0b0000000000000110, 0b1000000000000101] =
      .ok (.gt (.reg .r0) (.lit 6) (.reg .r5), []) := rfl
theorem test_decode_jmp : decode [0b0000000000000110, 0b0000000000000100, 9] = .ok (.jmp (.lit 4), [9]) := rfl
theorem test_decode_jt :
    decode [0b0000000000000111, 0b1000000000000000, 0b0000000000000011] = .ok (.jt (.reg .r0) (.lit 3), []) := rfl
theorem test_decode_jf :
    decode [0b0000000000001000, 0b1000000000000010, 0b0000000000010011] = .ok (.jf (.reg .r2) (.lit 19), []) := rfl
theorem test_decode_add :
    decode [0b0000000000001001, 0b1000000000000000, 0b0000000000000100, 0b0000000000000101] =
      .ok (.add (.reg .r0) (.lit 4) (.lit 5), []) := rfl
theorem test_decode_mult :
    decode [0b0000000000001010, 0b1000000000000000, 0b1000000000000000, 0b1000000000000001] =
      .ok (.mult (.reg .r0) (.reg .r0) (.reg .r1), []) := rfl
theorem test_decode_mod :
    decode [0b0000000000001011, 0b1000000000000110, 0b0000000000000111, 0b0000000000000011] =
      .ok (.mod (.reg .r6) (.lit 7) (.lit 3), []) := rfl
theorem test_decode_and :
    decode [0b0000000000001100, 0b1000000000000000, 0b0000000000001100, 0b0000000000001010] =
      .ok (.and (.reg .r0) (.lit 12) (.lit 10), []) := rfl
theorem test_decode_or :
    decode [0b0000000000001101, 0b1000000000000111, 0b0000000000001100, 0b0000000000001010] =
      .ok (.or (.reg .r7) (.lit 12) (.lit 10), []) := rfl
theorem test_decode_not :
    decode [0b0000000000001110, 0b1000000000000000, 0b0000000000000000] = .ok (.not (.reg .r0) (.lit 0), []) := rfl
theorem test_decode_rmem :
    decode [0b0000000000001111, 0b1000000000000010, 0b1000000000000001] = .ok (.rmem (.reg .r2) (.reg .r1), []) := rfl
theorem test_decode_wmem :
    decode [0b0000000000010000, 0b0000000000011110, 0b1000000000000000] = .ok (.wmem (.lit 30) (.reg .r0), []) := rfl
theorem test_decode_call : decode [0b0000000000010001, 0b0000000000001001] = .ok (.call (.lit 9), []) := rfl
theorem test_decode_ret : decode [0b0000000000010010] = .ok (.ret, []) := rfl
theorem test_decode_out : decode [0b0000000000010011, 0b0000000001000001] = .ok (.out (.lit 65), []) := rfl
theorem test_decode_in : decode [0b0000000000010100, 0b1000000000000001] = .ok (.input (.reg .r1), []) := rfl
theorem test_decode_noop : decode [0b0000000000010101] = .ok (.noop, []) := rfl

/-- 30_encoding.md R82: 51 is not `out`; R86: 22 and 32768 are invalid opcodes. -/
theorem test_decode_bad_opcodes :
    decode [51] = .error (.badOpcode 51) ∧ decode [22, 40000] = .error (.badOpcode 22) ∧
      decode [32768] = .error (.badOpcode 32768) := ⟨rfl, rfl, rfl⟩

/-- A missing operand word, and an invalid one, are operands of their own. -/
theorem test_decode_operand_kinds :
    decode [9, 7, 32776] = .ok (.add (.lit 7) (.bad 32776) .beyond, []) := rfl

/-- The host's numbering of a row: `set` with operand words of zeros, and `jt` with its words. -/
theorem test_decodeTableWord :
    decodeTableWord 16 1 = some (.set (.lit 0) (.lit 0)) ∧
      decodeTableWord 48 (7 + 32768 * 65536 + 3 * 65536 * 65536) = some (.jt (.reg .r0) (.lit 3)) ∧
      decodeTableWord 16 22 = none := ⟨rfl, rfl, rfl⟩

/-! ### One step of each instruction -/

-- V-H1
theorem test_halt : (after (step (boot [0]))).map (fun s => (s.run, s.pc)) = some (.haltedNormal, 0) := by decide
-- V-S1, V-S4
theorem test_set : (after (step (boot [1, 32771, 1234]))).map (fun s => (s.regs.r3, s.pc)) = some (1234, 3) := by decide
theorem test_set_wide :
    (after (step (bootRegs [1, 32768, 32769] 0 50000))).map (fun s => (s.regs.r0, s.pc)) = some (50000, 3) := by decide
-- V-P1
theorem test_push :
    (after (step ((bootRegs [2, 32769] 0 9).push 4))).map (fun s => (s.stack, s.pc)) = some ([4, 9], 2) := by decide
-- V-P3, V-P4
theorem test_pop :
    (after (step (((boot [3, 32770]).push 4).push 9))).map (fun s => (s.regs.r2, s.stack, s.pc)) =
      some (9, [4], 2) := by decide
theorem test_pop_empty :
    (after (step (boot [3, 32770]))).map (fun s => (s.run, s.pc)) =
      some (.haltedError .stackUnderflow 0, 0) := by decide
-- V-E3, V-E2
theorem test_eq_same : (after (step (bootRegs [4, 32768, 32768, 32768] 9 0))).map (·.regs.r0) = some 1 := by decide
theorem test_eq_differs :
    (after (step (bootRegs [4, 32768, 5, 6] 9 0))).map (fun s => (s.regs.r0, s.pc)) = some (0, 4) := by decide
-- V-G2, V-G5
theorem test_gt_strict : (after (step (bootRegs [5, 32768, 5, 5] 9 0))).map (·.regs.r0) = some 0 := by decide
theorem test_gt_wide : (after (step (bootRegs [5, 32768, 32769, 32767] 0 32768))).map (·.regs.r0) = some 1 := by decide
-- V-J5
theorem test_jmp_wide :
    (after (step (bootRegs [6, 32769] 0 40000))).map (fun s => (s.run, s.pc)) = some (.running, 40000) := by decide
-- V-J8, V-J13
theorem test_jt : (after (step (bootRegs [7, 32768, 32769] 32767 9))).map (·.pc) = some 9 := by decide
theorem test_jt_bad_target :
    (after (step (boot [7, 0, 40000]))).map (·.run) = some (.haltedError .invalidOperand 0) := by decide
-- V-J10, V-J11
theorem test_jf_taken : (after (step (boot [8, 0, 100]))).map (·.pc) = some 100 := by decide
theorem test_jf_not_taken : (after (step (boot [8, 5, 100]))).map (·.pc) = some 3 := by decide
-- V-A3, V-A7
theorem test_add_wraps : (after (step (boot [9, 32768, 32767, 32767]))).map (·.regs.r0) = some 32766 := by decide
theorem test_add_wide :
    (after (step (bootRegs [9, 32768, 32769, 32769] 0 65535))).map (·.regs.r0) = some 32766 := by decide
-- V-M4, V-M9
theorem test_mult : (after (step (boot [10, 32768, 181, 181]))).map (·.regs.r0) = some 32761 := by decide
theorem test_mult_wide :
    (after (step (bootRegs [10, 32768, 32769, 32769] 0 65535))).map (·.regs.r0) = some 1 := by decide
-- V-D9, V-D7
theorem test_mod_wide :
    (after (step (bootRegs [11, 32768, 32769, 32767] 0 65535))).map (·.regs.r0) = some 1 := by decide
theorem test_mod_zero :
    (after (step (bootRegs [11, 32768, 7, 0] 9 0))).map (fun s => (s.run, s.regs.r0, s.pc)) =
      some (.haltedError .divisionByZero 0, 9, 0) := by decide
-- V-L1, V-L10
theorem test_and : (after (step (boot [12, 32768, 12, 10]))).map (·.regs.r0) = some 8 := by decide
theorem test_and_wide :
    (after (step (bootRegs [12, 32768, 32769, 32769] 0 40000))).map (·.regs.r0) = some 40000 := by decide
-- V-L5, V-L9
theorem test_or : (after (step (boot [13, 32768, 12, 10]))).map (·.regs.r0) = some 14 := by decide
theorem test_or_wide :
    (after (step (bootRegs [13, 32768, 32769, 1] 0 32768))).map (·.regs.r0) = some 32769 := by decide
-- V-N3, V-N8
theorem test_not : (after (step (boot [14, 32768, 21845]))).map (·.regs.r0) = some 10922 := by decide
theorem test_not_wide : (after (step (bootRegs [14, 32768, 32769] 0 40000))).map (·.regs.r0) = some 25535 := by decide
-- V-R3, V-R6
theorem test_rmem :
    (after (step (bootRegs [15, 32769, 32768] 2 0))).map (fun s => (s.regs.r1, s.pc)) = some (32768, 3) := by decide
theorem test_rmem_above_top :
    (after (step (bootRegs [15, 32768, 32769] 0 32768))).map (fun s => (s.run, s.regs.r0)) =
      some (.haltedError .invalidAddress 0, 0) := by decide
-- V-W2, V-W4
theorem test_wmem_top :
    (after (step (bootRegs [16, 32768, 32769] 32767 65535))).map (fun s => (Memory.read s.mem 32767, s.pc)) =
      some (65535, 3) := by decide
theorem test_wmem_itself :
    (after (step (boot [16, 0, 21]))).map (fun s => (Memory.read s.mem 0, s.pc)) = some (21, 3) := by decide
-- V-C4, V-C2
theorem test_call_at_top :
    (after (step { State.reset with mem := [(32766, 17), (32767, 100)], pc := 32766 })).map
      (fun s => (s.stack, s.pc)) = some ([32768], 100) := by decide
theorem test_call :
    (after (step ((bootRegs [17, 32768] 500 0).push 1))).map (fun s => (s.stack, s.pc)) = some ([1, 2], 500) := by decide
-- V-T1, V-T2
theorem test_ret :
    (after (step (((boot [18]).push 3).push 5))).map (fun s => (s.stack, s.pc)) = some ([3], 5) := by decide
theorem test_ret_empty :
    (after (step (boot [18]))).map (fun s => (s.run, s.pc)) = some (.haltedError .stackUnderflow 0, 0) := by decide
-- V-O1, V-O4
theorem test_out : (after (step (boot [19, 65]))).map (fun s => (s.out, s.pc)) = some ([65], 2) := by decide
theorem test_out_wide :
    (after (step (bootRegs [19, 32768] 321 0))).map (fun s => (s.out, s.outChars)) = some ([321], [65]) := by decide
-- V-I1, V-I5
theorem test_in :
    (after (step (State.resetWith [20, 32769] [97, 98] true))).map (fun s => (s.regs.r1, s.inp, s.pc)) =
      some (97, [98], 2) := by decide
theorem test_in_holds :
    (State.resetWith [20, 32769] [] false).holding = true ∧
      step (State.resetWith [20, 32769] [] false) = .fault .holding := ⟨by decide, rfl⟩
-- V-Y1
theorem test_noop_at_top :
    (after (step { State.reset with mem := [(32767, 21)], pc := 32767 })).map (fun s => (s.run, s.pc)) =
      some (.running, 32768) := by decide

/-! ### Errors of the step and their order -/

-- V-X10, V-X9
theorem test_operand_before_later_fetch :
    (after (step { State.reset with mem := [(32765, 9), (32766, 7), (32767, 1)], pc := 32765 })).map (·.run) =
      some (.haltedError .invalidOperand 32765) := by decide
theorem test_operand_beyond_top :
    (after (step { State.reset with mem := [(32765, 9), (32766, 32768), (32767, 1)], pc := 32765 })).map (·.run) =
      some (.haltedError .invalidAddress 32765) := by decide
-- V-X5, V-X6
theorem test_destination_before_stack :
    (after (step (boot [3, 40000]))).map (·.run) = some (.haltedError .invalidOperand 0) := by decide
theorem test_operand_before_data_address :
    (after (step (bootRegs [16, 32768, 40000] 40000 0))).map (·.run) =
      some (.haltedError .invalidOperand 0) := by decide
-- S-E, V-Y6, V-H4
theorem test_invalid_opcode :
    (after (step (boot [22]))).map (fun s => (s.run, s.pc, s.out)) =
      some (.haltedError .invalidOpcode 0, 0, []) := by decide
theorem test_pc_above_top :
    (after (step { State.reset with pc := 65535 })).map (fun s => (s.run, s.pc)) =
      some (.haltedError .invalidAddress 65535, 65535) := by decide
theorem test_terminal_has_no_step : after (step { boot [21] with run := .haltedNormal }) = none := by decide
-- P8: the status record after `mod` by 0 at address 3
theorem test_status :
    ({ State.reset with run := .haltedError .divisionByZero 3 } : State).status = 3 * 32 + 6 * 4 + 2 := by decide
-- the host's placing of one instruction
theorem test_withFetchWord :
    after (step (State.reset.withFetchWord 32 (19 + 65 * 65536))) =
      (after (exec (.out (.lit 65)) (State.reset.withFetchWord 32 (19 + 65 * 65536)))) := by decide

/-! ### Witnesses: states and operands that meet the hypotheses of the statements, clause by clause -/

/-- `RegisterIndexErrorOnlyOutOfRange`, `MemoryReadAfterWrite`: the ends of their ranges. -/
theorem test_witness_storages :
    Reg.r7.index = 7 ∧ (∃ t, step State.reset = .next t) ∧
      Memory.wf [(0, 1), (32767, 65535)] ∧ (32767 : Nat) ≤ 32767 ∧ (32767 : Nat) < 32768 :=
  ⟨rfl, ⟨_, rfl⟩, by decide, by decide, by decide⟩

/-- `StoredWordIsFetched`, `WmemStores` (both clauses): an address at the top and one above it. -/
theorem test_witness_store :
    Memory.wf (bootRegs [16, 32768, 32769] 32767 32768).mem ∧
      resolve (bootRegs [16, 32768, 32769] 32767 32768) (.reg .r0) = .ok 32767 ∧
      resolve (bootRegs [16, 32768, 32769] 32767 32768) (.reg .r1) = .ok 32768 :=
  ⟨by decide, rfl, rfl⟩

/-- `ResolveByValue`, `DestByValue`: the boundary words of every clause. -/
theorem test_witness_operand_words :
    (32767 : Word).toNat ≤ 32767 ∧ (32768 : Word).toNat = 32768 + Reg.r0.index ∧
      (32775 : Word).toNat = 32768 + Reg.r7.index ∧ 32775 < (32776 : Word).toNat ∧ (32767 : Word).toNat < 32768 := by
  decide

/-- `FirstFailingOperandDecides`: both kinds of error, decided by an operand in each place. -/
theorem test_witness_first_failing :
    (Instr.add (.lit 7) (.lit 1) .beyond).operandFault = some .invalidOperand ∧
      (Instr.mod (.reg .r0) .beyond (.bad 32776)).operandFault = some .invalidAddress ∧
      (Instr.jt (.lit 0) (.bad 65535)).operandFault = some .invalidOperand := by decide

/-- `RaisesOperandErrors` of every instruction with operands: one that is not well formed. -/
theorem test_witness_ill_formed :
    ([.set (.lit 0) (.lit 0), .push (.bad 32776), .pop (.lit 0), .eq (.reg .r0) (.bad 32776) (.lit 0),
      .gt (.reg .r0) (.lit 0) .beyond, .jmp .beyond, .jt (.lit 0) (.bad 32776), .jf (.lit 1) .beyond,
      .add (.lit 0) (.lit 0) (.lit 0), .mult (.bad 32776) (.lit 0) (.lit 0), .mod (.reg .r0) (.lit 0) (.bad 32776),
      .and (.reg .r0) (.lit 0) (.bad 32776), .or (.reg .r0) (.bad 32776) (.lit 0), .not (.reg .r0) .beyond,
      .rmem (.lit 0) (.lit 0), .wmem (.bad 32776) (.lit 0), .call .beyond, .out (.bad 32776),
      .input (.lit 0)] : List Instr).all (fun i => i.wellFormed == false) = true := by decide

/-- The operands of shapes `S`, `D`, `SS`, `DS`, `DSS` resolve, narrow and wide: `SetCopies`, `PushAppends`, `EqComparesWords`,
`GtComparesUnsigned`, `JmpSetsPc`, `JtJumpsOnNonzero`, `JfJumpsOnZero`, `AddModulo`, `MultModulo`, `AndBitwise`, `OrBitwise`,
`NotComplements`, `CallPushesReturn`, `RetAfterCall`, `OutEmits`, `ResultRanges`; and `ModRemainder` with the
divisor 0 and another, `RmemLoads` with an address at the top and one above it. -/
theorem test_witness_operands :
    dest (.reg .r7) = .ok .r7 ∧ resolve (bootRegs [] 65535 32768) (.lit 32767) = .ok 32767 ∧
      resolve (bootRegs [] 65535 32768) (.lit 0) = .ok 0 ∧ resolve (bootRegs [] 65535 32768) (.reg .r0) = .ok 65535 ∧
      resolve (bootRegs [] 65535 32768) (.reg .r1) = .ok 32768 ∧ (0 : Word) ≠ 32768 :=
  ⟨rfl, rfl, rfl, rfl, rfl, by decide⟩

/-- `PopTakesTop`, `RetPopsPc`, `StackIsLifo`, `StackBelowIsNotRead`: an empty stack and one that is not. -/
theorem test_witness_stack :
    (boot [18]).stack = [] ∧ (((boot [18]).push 3).push 65535).stack = [3] ++ [65535] ∧
      ((boot [18]).push 3).stack ≠ [] := by decide

/-- `InReadsCode`, `InputIsNotReadAhead`: the three conditions of the input source. -/
theorem test_witness_input :
    (State.resetWith [20, 32768] [255, 0] true).inp = 255 :: [0] ∧
      ((State.resetWith [20, 32768] [] true).inp = [] ∧ (State.resetWith [20, 32768] [] true).inpEnd = true) ∧
      (State.resetWith [20, 32768] [] false).inp = [] ∧ (State.resetWith [20, 32768] [] false).inpEnd = false ∧
      (State.resetWith [20, 32768] [255, 0] true).inp ≠ [] := by decide

/-- `HoldUntilSupplied`, `RunningStatesStep`: a holding machine and a running one that does not hold; an input source with a
code waiting before end-of-input, and one after it. -/
theorem test_witness_hold :
    (State.resetWith [20, 32775] [] false).holding = true ∧ State.reset.holding = false ∧
      (State.resetWith [20, 32775] [104] false).inpEnd = false ∧ State.reset.inpEnd = true := by decide

/-- `ReadsBeforeWrites`: a register that holds the highest address. -/
theorem test_witness_reads_before_writes : ((bootRegs [] 32767 0).regs.get .r0).toNat ≤ 32767 := by decide

/-- The frames: an instruction that completes, another register than its destination, another address than its store. -/
theorem test_witness_frames :
    (∃ t, exec (.set (.reg .r0) (.lit 5)) State.reset = .next t) ∧
      (Instr.set (.reg .r0) (.lit 5)).target? ≠ some .r1 ∧
      (∃ t, exec (.wmem (.lit 32767) (.lit 5)) State.reset = .next t) ∧
      State.reset.storeTo? (.wmem (.lit 32767) (.lit 5)) ≠ some 0 :=
  ⟨⟨_, rfl⟩, by decide, ⟨_, rfl⟩, by decide⟩

/-- `TerminalStatesHaveNoStep`, `RunningStatesStep`, `StepRunsDecoded`. -/
theorem test_witness_step :
    ({ State.reset with run := .haltedError .inputExhausted 7 } : State).run ≠ .running ∧
      State.reset.run = .running ∧ decode (fetchWords (boot [19, 65]).mem 0 4) = .ok (.out (.lit 65), [0, 0]) :=
  ⟨by decide, rfl, rfl⟩

/-- `StepRunsStoredInstruction`: an instruction that ends at the top of memory. -/
theorem test_witness_stored :
    (Instr.out (.lit 65)).wellFormed = true ∧
      ∀ k, (h : k < (Instr.out (.lit 65)).encode.length) →
        memRead [(32766, 19), (32767, 65)] (32766 + k) = .ok ((Instr.out (.lit 65)).encode[k]) := by
  refine ⟨by decide, fun k h => ?_⟩
  match k with
  | 0 => rfl
  | 1 => rfl
  | k + 2 => exact absurd h (by simp [Instr.encode, Instr.operands, Instr.roles, Operand.encode])

/-- `InvalidOpcodeFaults`, `AddressesDoNotWrap` (its first two clauses): the lowest invalid opcode; the lowest `pc` above the
top; an opcode with operands in the last word. -/
theorem test_witness_fetch_faults :
    memRead (boot [22]).mem (boot [22]).pc.toNat = .ok 22 ∧ 21 < (22 : Word).toNat ∧ 32767 < (32768 : Word).toNat ∧
      memRead [(32767, 20)] 32767 = .ok 20 ∧ (20 : Word).toNat ≤ 21 ∧ (20 : Word) ≠ 0 ∧ (20 : Word) ≠ 18 ∧
      (20 : Word) ≠ 21 :=
  ⟨rfl, by decide, by decide, rfl, by decide, by decide, by decide, by decide⟩

/-- `AddressesDoNotWrap`, the second and the third operand beyond the top: `set r7, _` and `wmem 32767, _` at 32766, and
`add r0, r7, _` at 32765. -/
theorem test_witness_straddle :
    (memRead [(32766, 1), (32767, 32775)] 32766 = .ok 1 ∧ memRead [(32766, 1), (32767, 32775)] 32767 = .ok 32775 ∧
      (1 : Word).toNat ∈ [1, 4, 5, 9, 10, 11, 12, 13, 14, 15] ∧ 32768 ≤ (32775 : Word).toNat ∧
      (32775 : Word).toNat ≤ 32775) ∧
    (memRead [(32766, 16), (32767, 32767)] 32767 = .ok 32767 ∧ (16 : Word).toNat ∈ [7, 8, 16]) ∧
    memRead [(32765, 9), (32766, 32768), (32767, 32775)] 32765 = .ok 9 ∧
      memRead [(32765, 9), (32766, 32768), (32767, 32775)] 32766 = .ok 32768 ∧
      memRead [(32765, 9), (32766, 32768), (32767, 32775)] 32767 = .ok 32775 ∧
      (9 : Word).toNat ∈ [4, 5, 9, 10, 11, 12, 13] :=
  ⟨⟨rfl, rfl, by decide, by decide, by decide⟩, ⟨rfl, by decide⟩, rfl, rfl, rfl, by decide⟩

/-- `SequentialPcBound`: a `noop` in the last word. -/
theorem test_witness_sequential :
    fetch { State.reset with mem := [(32767, 21)], pc := 32767 } = .ok .noop ∧ Instr.noop.redirects = false ∧
      ∃ t, step { State.reset with mem := [(32767, 21)], pc := 32767 } = .next t ∧ t.run = .running :=
  ⟨rfl, rfl, ⟨_, rfl, rfl⟩⟩

/-- `HaltEndsRun`, `NoopAdvances`: a zero word at `pc`, and a `noop` in the last word. -/
theorem test_witness_halt_noop :
    memRead (boot [21, 0]).mem ({ boot [21, 0] with pc := 1 } : State).pc.toNat = .ok 0 ∧
      memRead [(32767, 21)] 32767 = .ok 21 ∧ (boot [21, 0]).run = .running := ⟨rfl, rfl, rfl⟩

/-- `ErrorsArePrecise`, `OnlyHaltEndsNormally`: a step that ends in an error, and one that ends normally. -/
theorem test_witness_ends :
    (∃ t, step (boot [22]) = .next t ∧ t.run = .haltedError .invalidOpcode 0) ∧
      ∃ t, step (boot [0]) = .next t ∧ t.EndedNormally :=
  ⟨⟨_, rfl, rfl⟩, ⟨_, rfl, rfl⟩⟩

/-- `NarrowInvariant`, `InvariantKept`: a running state that meets both premises and steps. -/
theorem test_witness_invariants :
    State.reset.Narrow ∧ ¬ State.reset.MakesWide ∧ State.reset.Inv ∧ ∃ t, step State.reset = .next t := by
  refine ⟨⟨fun r => ?_, ?_⟩, ?_, ⟨?_, ?_⟩, ⟨_, rfl⟩⟩
  · cases r <;> unfold Sys2Proof.Narrow <;> decide
  · intro v hv
    cases hv
  · rintro (⟨A, B, b, v, h, -⟩ | ⟨A, h, -⟩) <;> cases h
  · decide
  · intro k fpc h
    cases h

/-- `DecodeOfEncode`, `EncodeOfDecode`, `OpcodeWordDecides` (both clauses). -/
theorem test_witness_encoding :
    (Instr.wmem (.lit 32767) (.reg .r7)).wellFormed = true ∧
      (Instr.wmem (.lit 32767) (.reg .r7)).encode = (Instr.wmem (.lit 32767) (.reg .r7)).encode ∧
      decode [16, 32767, 32775, 0] = .ok (.wmem (.lit 32767) (.reg .r7), [0]) ∧ (21 : Word).toNat ≤ 21 ∧
      21 < (22 : Word).toNat :=
  ⟨by decide, rfl, rfl, by decide, by decide⟩

/-- `ResetState`: a whole image, and an address beyond a short one. -/
theorem test_witness_image :
    (List.replicate 32768 (21 : Word)).length ≤ 32768 ∧ ([0] : List Word).length ≤ 32767 := by
  rw [List.length_replicate]
  decide

/-- `StatusRecordFields`: the three kinds of run state. -/
theorem test_witness_run_states :
    State.reset.run = .running ∧ ({ State.reset with run := .haltedNormal } : State).run = .haltedNormal ∧
      ({ State.reset with run := .haltedError .inputExhausted 65535 } : State).run =
        .haltedError .inputExhausted 65535 := by decide

end Sys2Proof.Tests
end

section
/-!
PROOFS. Scope: a state that is not `Running` has no step (R10).
-/
namespace Sys2Proof.Machine

/-- The companion of `step_running`: both kinds of terminal run state stop the step. -/
theorem step_of_not_running {s : State} (h : s.run ≠ .running) : step s = .fault .terminal := by
  cases hr : s.run with
  | running => exact absurd hr h
  | haltedNormal => simp [step, hr]
  | haltedError k fpc => simp [step, hr]

/-- Settles O39, by the three kinds of run state. -/
theorem terminalStatesHaveNoStep : Obligations.TerminalStatesHaveNoStep :=
  fun _ h => step_of_not_running h

end Sys2Proof.Machine
end

section
/-!
PROOFS. Encoding: the opcode word alone decides whether the decoder gives an instruction (R82, R86, R89).
-/
namespace Sys2Proof

/-- Every row of the opcode table (R85) decodes whatever follows: a missing operand word is the operand `beyond`, so no
row is refused for want of words. -/
theorem decode_ok_of_opcode_le {op : Word} (ws : List Word) (h : op.toNat ≤ 21) :
    ∃ i rest, decode (op :: ws) = .ok (i, rest) ∧ i.opcode = op := by
  obtain ⟨code, hcode, rfl⟩ : ∃ code ≤ 21, op = BitVec.ofNat 16 code :=
    ⟨op.toNat, h, by simp only [BitVec.ofNat_toNat, BitVec.setWidth_eq]⟩
  match code with
  | 0 | 1 | 2 | 3 | 4 | 5 | 6 | 7 | 8 | 9 | 10 | 11 | 12 | 13 | 14 | 15 | 16 | 17 | 18 | 19 | 20 | 21 =>
    exact ⟨_, _, rfl, rfl⟩
  | _ + 22 => omega

/-- No row of the opcode table has a code above 21, so such a word falls to the decoder's last case. -/
theorem decode_badOpcode_of_lt {op : Word} (ws : List Word) (h : 21 < op.toNat) :
    decode (op :: ws) = .error (.badOpcode op) := by
  simp only [decode]
  split
  case h_23 => rfl
  all_goals omega

/-- Settles O56, by the two sides of the bound 21. -/
theorem opcodeWordDecides : Obligations.OpcodeWordDecides :=
  fun _ ws => ⟨decode_ok_of_opcode_le ws, decode_badOpcode_of_lt ws⟩

end Sys2Proof
end

section
/-!
PROOFS. Step and operands: an operand word means what its value says (R102, R103), and the register file's own error
(R104) never ends a step.
-/
namespace Sys2Proof.Machine

/-! ### Operand words -/

/-- Sorting a word at most 32767 drops its top bit, and the resolver's zero extension puts the 0 back. -/
theorem resolve_ofWord_lit (s : State) {w : Word} (h : w.toNat ≤ 32767) : resolve s (Operand.ofWord w) = .ok w := by
  have hw : (w.setWidth 15).setWidth 16 = w := by
    apply BitVec.eq_of_toNat_eq
    simp only [BitVec.toNat_setWidth]
    omega
  rw [Operand.ofWord_lit h, resolve, hw]

/-- Settles O6, by the three kinds of operand word. -/
theorem resolveByValue : Obligations.ResolveByValue := by
  intro s w
  refine ⟨resolve_ofWord_lit s, fun r hr => ?_, fun hw => ?_⟩
  · rw [Operand.ofWord_reg hr, resolve]
  · rw [Operand.ofWord_bad hw, resolve]

/-- Settles O7: a register word is the only kind that names a destination. -/
theorem destByValue : Obligations.DestByValue := by
  intro w
  refine ⟨fun r hr => ?_, ?_⟩
  · rw [Operand.ofWord_reg hr, dest_reg]
  · rintro (hlit | hbad)
    · rw [Operand.ofWord_lit (Nat.le_of_lt_succ hlit), dest]
    · rw [Operand.ofWord_bad hbad, dest]

/-! ### The register file's own check -/

@[simp] theorem RegFile.getAt_index (f : RegFile) (r : Reg) : f.getAt r.index = .ok (f.get r) := by
  rw [RegFile.getAt, Reg.ofIndex?_index]

@[simp] theorem RegFile.setAt_index (f : RegFile) (r : Reg) (v : Word) : f.setAt r.index v = .ok (f.set r v) := by
  rw [RegFile.setAt, Reg.ofIndex?_index]

theorem RegFile.getAt_of_gt (f : RegFile) {index : Nat} (h : 7 < index) :
    f.getAt index = .error .registerIndexOutOfRange := by
  rw [RegFile.getAt, Reg.ofIndex?_eq_none.mpr h]

theorem RegFile.setAt_of_gt (f : RegFile) {index : Nat} (v : Word) (h : 7 < index) :
    f.setAt index v = .error .registerIndexOutOfRange := by
  rw [RegFile.setAt, Reg.ofIndex?_eq_none.mpr h]

/-- No index from 0 to 7 is without a register. -/
theorem exists_reg_of_index_le {index : Nat} (h : index ≤ 7) : ∃ r : Reg, r.index = index := by
  cases hr : Reg.ofIndex? index with
  | some r => exact ⟨r, Reg.ofIndex?_eq_some hr⟩
  | none => exact absurd (Reg.ofIndex?_eq_none.mp hr) (Nat.not_le_of_lt (Nat.lt_succ_of_le h))

/-! ### The run state after a step -/

theorem State.pop_run {s u : State} {v : Word} (h : s.pop = .ok (v, u)) : u.run = s.run := by
  rw [(State.pop_eq_ok.mp h).2]

theorem State.takeInput_run {s u : State} {c : Byte} (h : s.takeInput = .ok (some (c, u))) : u.run = s.run := by
  rw [(State.takeInput_eq_some.mp h).2]

/-- An instruction sets the run state in two ways only: by taking an error, which is never the register file's own, and
by `halt`. -/
theorem Effect.run_cases {s t : State} {i : Instr} (h : Effect s i t) :
    (∃ k, k ≠ .registerIndexOutOfRange ∧ t = s.raise k) ∨ (i = .halt ∧ t = s.halt) ∨ t.run = s.run := by
  cases h with
  | raise hk _ _ => exact .inl ⟨_, hk, rfl⟩
  | halt => exact .inr (.inl ⟨rfl, rfl⟩)
  | pop _ hp => exact .inr (.inr (by simp [State.pop_run hp]))
  | ret hp => exact .inr (.inr (by simp [State.pop_run hp]))
  | input _ hin => exact .inr (.inr (by simp [State.takeInput_run hin]))
  | jt _ _ | jf _ _ => exact .inr (.inr (by split <;> rfl))
  | _ => exact .inr (.inr rfl)

/-- The run state a step ends in: an error other than the register file's own, taken at the `pc` of the failing
instruction with nothing else changed, or one of the two others. -/
theorem step_run_cases {s t : State} (h : step s = .next t) :
    (∃ k, k ≠ .registerIndexOutOfRange ∧ t = s.raise k) ∨ t.run = .haltedNormal ∨ t.run = .running := by
  obtain ⟨hrun, ⟨i, -, hexec⟩ | ⟨e, hfetch, rfl⟩⟩ := step_eq_next h
  · rcases (exec_effect hexec).run_cases with hraise | ⟨-, rfl⟩ | hsame
    · exact .inl hraise
    · exact .inr (.inl rfl)
    · exact .inr (.inr (hsame.trans hrun))
  · have he : e ≠ .registerIndexOutOfRange := by rcases fetch_error hfetch with rfl | rfl <;> decide
    exact .inl ⟨e, he, rfl⟩

/-- No rule raises the register file's own error (R183). -/
theorem step_run_ne_registerIndexOutOfRange {s t : State} (h : step s = .next t) (fpc : Word) :
    t.run ≠ .haltedError .registerIndexOutOfRange fpc := by
  rcases step_run_cases h with ⟨k, hk, rfl⟩ | hnormal | hrunning
  · exact fun heq => hk (RunState.haltedError.inj heq).1
  · rw [hnormal]; exact nofun
  · rw [hrunning]; exact nofun

/-- Settles O2: the check on either side of the bound 7, and the run states a step can end in. -/
theorem registerIndexErrorOnlyOutOfRange : Obligations.RegisterIndexErrorOnlyOutOfRange :=
  ⟨fun f r v => ⟨Nat.le_of_lt_succ r.index_lt, f.getAt_index r, f.setAt_index r v⟩,
    fun f _ v h => ⟨f.getAt_of_gt h, f.setAt_of_gt v h⟩,
    fun _ => exists_reg_of_index_le,
    fun _ _ fpc h => step_run_ne_registerIndexOutOfRange h fpc⟩

end Sys2Proof.Machine
end

section
/-!
PROOFS. Instructions whose one operand is a source (shape `S`): their words and their operand errors (R80, R101 phase 3),
said once for the shape; and `push` (R121).
-/
namespace Sys2Proof.Machine

open Host (Outcome)

/-! ### One operand -/

/-- An instruction with one operand, in either role, is its opcode word and the words of that operand. -/
theorem encode_of_single_operand {i : Instr} {A : Operand} {ρ : Role} (hroles : i.roles = [(ρ, A)]) :
    i.encode = i.opcode :: A.encode := by
  simp [Instr.encode, Instr.operands, hroles]

/-- An instruction that first resolves its only operand takes the error that `Operand.fault` lists for it. -/
theorem raisesOperandErrors_of_single_source {i : Instr} {A : Operand} (hroles : i.roles = [(.src, A)])
    (k : State → Word → Outcome State Fault Refusal)
    (hexec : ∀ s, exec i s = orRaise s (resolve s A) (k s)) : i.RaisesOperandErrors := by
  intro s hwf
  have hbad : A.okAs .src = false := by simpa [Instr.wellFormed, hroles] using hwf
  rcases resolve_cases s A with ⟨_, -, -, hok⟩ | ⟨e, hres, hfault, -⟩
  · exact absurd hok (by simp [hbad])
  · exact ⟨e, ⟨(.src, A), by simp [hroles], hfault⟩, by rw [hexec, hres, orRaise_error, State.raise]⟩

/-! ### `push` -/

theorem exec_push (A : Operand) (s : State) :
    exec (.push A) s = orRaise s (resolve s A) fun a => .next ((s.push a).advance 2) := rfl

/-- Settles O10: `push` is of shape `S`, and once its operand resolves it is `State.push` followed by the advance. -/
theorem pushAppends : Obligations.PushAppends := by
  intro A
  refine ⟨encode_of_single_operand rfl, raisesOperandErrors_of_single_source rfl _ (exec_push A), fun s a ha => ?_⟩
  rw [exec_push, ha, orRaise_ok]
  rfl

end Sys2Proof.Machine
end

section
/-!
PROOFS. The operand phase of an instruction with any operands (R101 phase 3, R105 item 3), read off its list of roles; and
the two shapes of arithmetic and logic: `DSS` (a destination and two sources) and `DS` (a destination and one source).
-/
namespace Sys2Proof.Machine

open Host (Outcome)

/-! ### The operand phase -/

/-- When some operand of `ps` fails, the outcome `o` in state `s` is to take the error of the first that does. -/
def RaisesFirstFault (s : State) (ps : List (Role × Operand)) (o : Outcome State Fault Refusal) : Prop :=
  ∀ e, (ps.findSome? fun p => p.2.fault p.1) = some e → o = .next (s.raise e)

section OperandPhase

variable {s : State} {A : Operand} {ps : List (Role × Operand)}

/-- With no operand left, the operand phase decides nothing. -/
theorem RaisesFirstFault.nil (o : Outcome State Fault Refusal) : RaisesFirstFault s [] o :=
  nofun

theorem RaisesFirstFault.cons_dest {k : Reg → Outcome State Fault Refusal} (h : ∀ d, RaisesFirstFault s ps (k d)) :
    RaisesFirstFault s ((.dst, A) :: ps) (orRaise s (dest A) k) := by
  intro e he
  rcases dest_cases A with ⟨d, hA, hfault, -⟩ | ⟨e', hA, hfault, -⟩ <;> rw [List.findSome?_cons, hfault] at he
  · rw [hA, orRaise_ok, h d e he]
  · rw [hA, orRaise_error, Option.some.inj he]

theorem RaisesFirstFault.cons_resolve {k : Word → Outcome State Fault Refusal}
    (h : ∀ a, RaisesFirstFault s ps (k a)) : RaisesFirstFault s ((.src, A) :: ps) (orRaise s (resolve s A) k) := by
  intro e he
  rcases resolve_cases s A with ⟨a, hA, hfault, -⟩ | ⟨e', hA, hfault, -⟩ <;> rw [List.findSome?_cons, hfault] at he
  · rw [hA, orRaise_ok, h a e he]
  · rw [hA, orRaise_error, Option.some.inj he]

/-- An operand its role does not accept raises an error in it. -/
theorem fault_of_not_okAs {ρ : Role} (h : A.okAs ρ = false) : ∃ e, A.fault ρ = some e := by
  cases ρ with
  | dst =>
    rcases dest_cases A with ⟨_, -, -, hok⟩ | ⟨e, -, hfault, -⟩
    · simp [h] at hok
    · exact ⟨e, hfault⟩
  | src =>
    rcases resolve_cases .reset A with ⟨_, -, -, hok⟩ | ⟨e, -, hfault, -⟩
    · simp [h] at hok
    · exact ⟨e, hfault⟩

end OperandPhase

/-- An instruction that is not well formed has a first failing operand. -/
theorem operandFault_of_not_wellFormed {i : Instr} (h : i.wellFormed = false) : ∃ e, i.operandFault = some e := by
  obtain ⟨p, hp, hbad⟩ := List.all_eq_false.mp h
  obtain ⟨e, he⟩ := fault_of_not_okAs (Bool.eq_false_iff.mpr hbad)
  exact Option.isSome_iff_exists.mp (List.findSome?_isSome_iff.mpr ⟨p, hp, by rw [he]; rfl⟩)

/-- An instruction whose operands are checked in source order takes the error of one of them. -/
theorem raisesOperandErrors_of_first {i : Instr} (h : ∀ s, RaisesFirstFault s i.roles (exec i s)) :
    i.RaisesOperandErrors := by
  intro s hwf
  obtain ⟨e, he⟩ := operandFault_of_not_wellFormed hwf
  exact ⟨e, List.exists_of_findSome?_eq_some he, h s e he⟩

/-! ### The shapes `DSS` and `DS` -/

section Shapes

variable {i : Instr} {A B C : Operand} {s : State} {d : Reg} {b c : Word}

theorem encode_of_two_operands {ρ σ : Role} (hroles : i.roles = [(ρ, A), (σ, B)]) :
    i.encode = i.opcode :: (A.encode ++ B.encode) := by
  simp [Instr.encode, Instr.operands, hroles]

theorem encode_of_three_operands {ρ σ τ : Role} (hroles : i.roles = [(ρ, A), (σ, B), (τ, C)]) :
    i.encode = i.opcode :: (A.encode ++ (B.encode ++ C.encode)) := by
  simp [Instr.encode, Instr.operands, hroles]

theorem raisesOperandErrors_of_dest_source {k : State → Reg → Word → Outcome State Fault Refusal}
    (hroles : i.roles = [(.dst, A), (.src, B)])
    (hexec : ∀ s, exec i s = orRaise s (dest A) fun d => orRaise s (resolve s B) fun b => k s d b) :
    i.RaisesOperandErrors := by
  refine raisesOperandErrors_of_first fun s => ?_
  rw [hroles, hexec]
  exact .cons_dest fun _ => .cons_resolve fun _ => .nil _

theorem raisesOperandErrors_of_dest_two_sources {k : State → Reg → Word → Word → Outcome State Fault Refusal}
    (hroles : i.roles = [(.dst, A), (.src, B), (.src, C)])
    (hexec : ∀ s, exec i s =
      orRaise s (dest A) fun d => orRaise s (resolve s B) fun b => orRaise s (resolve s C) fun c => k s d b c) :
    i.RaisesOperandErrors := by
  refine raisesOperandErrors_of_first fun s => ?_
  rw [hroles, hexec]
  exact .cons_dest fun _ => .cons_resolve fun _ => .cons_resolve fun _ => .nil _

theorem exec_of_dest_source {k : State → Reg → Word → Outcome State Fault Refusal}
    (hexec : ∀ s, exec i s = orRaise s (dest A) fun d => orRaise s (resolve s B) fun b => k s d b)
    (hA : dest A = .ok d) (hB : resolve s B = .ok b) : exec i s = k s d b := by
  rw [hexec, hA, orRaise_ok, hB, orRaise_ok]

theorem exec_of_dest_two_sources {k : State → Reg → Word → Word → Outcome State Fault Refusal}
    (hexec : ∀ s, exec i s =
      orRaise s (dest A) fun d => orRaise s (resolve s B) fun b => orRaise s (resolve s C) fun c => k s d b c)
    (hA : dest A = .ok d) (hB : resolve s B = .ok b) (hC : resolve s C = .ok c) : exec i s = k s d b c := by
  rw [hexec, hA, orRaise_ok, hB, orRaise_ok, hC, orRaise_ok]

end Shapes

end Sys2Proof.Machine
end

section
/-!
PROOFS. Arithmetic and logic: `add` (R140), `mult` (R141) and `not` (R145).
-/
namespace Sys2Proof.Machine

/-! ### The values -/

/-- Clearing bit 15 of a word is reducing it modulo 32768. -/
theorem toNat_and_0x7FFF (w : Word) : (w &&& 0x7FFF).toNat = w.toNat % 32768 :=
  (BitVec.toNat_and w 0x7FFF).trans (Nat.and_two_pow_sub_one_eq_mod w.toNat 15)

/-- 32768 divides 65536, so keeping only the low 16 bits of the product loses none of bits 14 to 0. -/
theorem multValue_eq_and (b c : Word) : multValue b c = (b * c) &&& 0x7FFF := by
  apply BitVec.eq_of_toNat_eq
  rw [multValue_toNat, toNat_and_0x7FFF, BitVec.toNat_mul, Nat.mod_mod_of_dvd _ (by decide)]

theorem notValue_eq_and (b : Word) : notValue b = ~~~b &&& 0x7FFF := by
  apply BitVec.eq_of_toNat_eq
  rw [notValue_toNat, toNat_and_0x7FFF, BitVec.toNat_not]

/-- Inverting bits 14 to 0 with bit 15 cleared before or after is the same. -/
theorem notValue_eq_xor (b : Word) : notValue b = (b &&& 0x7FFF) ^^^ 0x7FFF := by
  rw [notValue_eq_and]
  ext i
  simp only [BitVec.getElem_and, BitVec.getElem_not, BitVec.getElem_xor]
  cases b[i] <;> simp

/-- 65535 is 32767 modulo 32768, so the complement of `b` reduced is the 15-bit complement of `b` reduced. -/
theorem notValue_toNat_eq_sub (b : Word) : (notValue b).toNat = 32767 - b.toNat % 32768 := by
  have hb := b.isLt
  rw [notValue_toNat]
  omega

/-! ### The instructions -/

theorem exec_add (A B C : Operand) (s : State) : exec (.add A B C) s =
    orRaise s (dest A) fun d => orRaise s (resolve s B) fun b => orRaise s (resolve s C) fun c =>
      .next ((s.setReg d (addValue b c)).advance 4) := rfl

theorem exec_mult (A B C : Operand) (s : State) : exec (.mult A B C) s =
    orRaise s (dest A) fun d => orRaise s (resolve s B) fun b => orRaise s (resolve s C) fun c =>
      .next ((s.setReg d (multValue b c)).advance 4) := rfl

theorem exec_not (A B : Operand) (s : State) : exec (.not A B) s =
    orRaise s (dest A) fun d => orRaise s (resolve s B) fun b =>
      .next ((s.setReg d (notValue b)).advance 3) := rfl

/-- Settles O17: `add` is of shape `DSS`, and `addValue` is the exact sum reduced. -/
theorem addModulo : Obligations.AddModulo := by
  refine fun A B C => ⟨encode_of_three_operands rfl, raisesOperandErrors_of_dest_two_sources rfl (exec_add A B C), ?_⟩
  intro s d b c hA hB hC
  exact ⟨addValue b c, addValue_toNat b c, exec_of_dest_two_sources (exec_add A B C) hA hB hC⟩

/-- Settles O18: `mult` is of shape `DSS`, and `multValue` is bits 14 to 0 of the exact product and of the 16-bit one. -/
theorem multModulo : Obligations.MultModulo := by
  refine fun A B C => ⟨encode_of_three_operands rfl, raisesOperandErrors_of_dest_two_sources rfl (exec_mult A B C), ?_⟩
  intro s d b c hA hB hC
  exact ⟨multValue b c, multValue_toNat b c, multValue_eq_and b c,
    exec_of_dest_two_sources (exec_mult A B C) hA hB hC⟩

/-- Settles O22: `not` is of shape `DS`, and `notValue` has the three forms. -/
theorem notComplements : Obligations.NotComplements := by
  refine fun A B => ⟨encode_of_two_operands rfl, raisesOperandErrors_of_dest_source rfl (exec_not A B), ?_⟩
  intro s d b hA hB
  exact ⟨notValue b, notValue_toNat b, notValue_toNat_eq_sub b, notValue_eq_xor b,
    exec_of_dest_source (exec_not A B) hA hB⟩

end Sys2Proof.Machine
end

section
/-!
PROOFS. `halt` (R170): what it does, that no step follows it, and that any memory word 0 is one when fetched as an opcode.
-/
namespace Sys2Proof.Machine

/-! ### The fetch, from the word at `pc` -/

/-- The first fetched word is the word read from the address, whatever stands behind it. -/
theorem fetchWords_of_memRead {m : Memory} {a : Nat} {w : Word} (n : Nat) (h : memRead m a = .ok w) :
    fetchWords m a (n + 1) = w :: fetchWords m (a + 1) n := by
  obtain ⟨hlt, hread⟩ := memRead_eq_ok.mp h
  rw [fetchWords_succ n hlt, hread]

theorem decode_zero (ws : List Word) : decode (0 :: ws) = .ok (.halt, ws) := rfl

/-- The fetch sees no difference between a 0 loaded as code and any other 0. -/
theorem fetch_eq_halt_of_memRead_zero {s : State} (h : memRead s.mem s.pc.toNat = .ok 0) : fetch s = .ok .halt := by
  apply fetch_of_decode
  rw [fetchWords_of_memRead 3 h, decode_zero]

/-! ### The instruction -/

theorem exec_halt (s : State) : exec .halt s = .next s.halt := rfl

theorem step_of_memRead_zero {s : State} (hrun : s.run = .running) (h : memRead s.mem s.pc.toNat = .ok 0) :
    step s = .next s.halt := by
  rw [step_running hrun, fetch_eq_halt_of_memRead_zero h, orRaise_ok, exec_halt]

/-- `halt` leaves a state that is not `Running`. -/
theorem step_halt (s : State) : step s.halt = .fault .terminal :=
  step_of_not_running (by rw [State.halt_run]; exact nofun)

/-- Settles O30: its next state is `State.halt`, which is terminal and which a word 0 at `pc` leads to. -/
theorem haltEndsRun : Obligations.HaltEndsRun :=
  ⟨rfl, fun s => ⟨exec_halt s, step_halt s, step_of_memRead_zero⟩⟩

end Sys2Proof.Machine
end

section
/-!
PROOFS. Exceptions: an invalid opcode word ends the run where it stands (R86, R181), and every error is precise and terminal
(R188, R190).
-/
namespace Sys2Proof.Machine

/-! ### Invalid opcode -/

/-- The opcode word alone makes the fetch fail; the words behind it are not looked at. -/
theorem fetch_eq_invalidOpcode_of_lt {s : State} {op : Word} (h : memRead s.mem s.pc.toNat = .ok op)
    (hop : 21 < op.toNat) : fetch s = .error .invalidOpcode := by
  rw [fetch, fetchWords_of_memRead 3 h, decode_badOpcode_of_lt _ hop]

/-- Settles O43: the step takes the error of the fetch, and `State.raise` sets the run state alone. -/
theorem invalidOpcodeFaults : Obligations.InvalidOpcodeFaults := by
  intro s op hrun hread hop
  rw [step_running hrun, fetch_eq_invalidOpcode_of_lt hread hop, orRaise_error, State.raise]

/-! ### Precise errors -/

/-- A step ends in an error only by taking that error: `halt` and every completed effect leave another run state. -/
theorem eq_raise_of_step_run_haltedError {s t : State} {k : ErrorKind} {fpc : Word} (hstep : step s = .next t)
    (hrun : t.run = .haltedError k fpc) : t = s.raise k ∧ fpc = s.pc := by
  rcases step_run_cases hstep with ⟨k', -, rfl⟩ | hnormal | hrunning
  · obtain ⟨rfl, rfl⟩ := RunState.haltedError.inj hrun
    exact ⟨rfl, rfl⟩
  · exact nomatch hnormal.symm.trans hrun
  · exact nomatch hrunning.symm.trans hrun

/-- Settles O46: the state is `State.raise` of the state before, and a run state that is an error stops the step. -/
theorem errorsArePrecise : Obligations.ErrorsArePrecise := by
  intro s t k fpc hstep hrun
  obtain ⟨hraise, hpc⟩ := eq_raise_of_step_run_haltedError hstep hrun
  exact ⟨hraise, hpc, step_of_not_running (by rw [hrun]; exact nofun)⟩

end Sys2Proof.Machine
end

section
/-!
PROOFS. Encoding: decode and encode are inverse to each other (R80 to R87, R92).
-/
namespace Sys2Proof

open Sys2Proof.Machine

/-! ### Taking the operands of one shape -/

theorem encode_of_takeOperand {A : Operand} {ws rest : List Word} (h : takeOperand ws = (A, rest)) :
    A.encode ++ rest = ws := by
  simpa [h] using encode_takeOperand ws

section Shapes

variable {A B C : Operand} {ws ws₁ ws₂ ws₃ : List Word}

theorem decode1_eq_ok (f : Operand → Instr) (hA : takeOperand ws = (A, ws₁)) : decode1 f ws = .ok (f A, ws₁) := by
  simp [decode1, hA]

theorem decode2_eq_ok (f : Operand → Operand → Instr) (hA : takeOperand ws = (A, ws₁))
    (hB : takeOperand ws₁ = (B, ws₂)) : decode2 f ws = .ok (f A B, ws₂) := by
  simp [decode2, hA, hB]

theorem decode3_eq_ok (f : Operand → Operand → Operand → Instr) (hA : takeOperand ws = (A, ws₁))
    (hB : takeOperand ws₁ = (B, ws₂)) (hC : takeOperand ws₂ = (C, ws₃)) : decode3 f ws = .ok (f A B C, ws₃) := by
  simp [decode3, hA, hB, hC]

end Shapes

/-! ### Decoding what was encoded -/

/-- The opcode word selects the decoder of the instruction's own shape, which takes its operands back one by one. -/
theorem decode_encode {i : Instr} (rest : List Word) (h : i.wellFormed = true) :
    decode (i.encode ++ rest) = .ok (i, rest) := by
  cases i with
  | halt | ret | noop => rfl
  | push A | pop A | jmp A | call A | out A | input A =>
    obtain ⟨hA, -⟩ := Bool.and_eq_true_iff.mp h
    rw [encode_of_single_operand rfl]
    exact decode1_eq_ok _ (takeOperand_encode hA rest)
  | set A B | jt A B | jf A B | not A B | rmem A B | wmem A B =>
    obtain ⟨hA, hBs⟩ := Bool.and_eq_true_iff.mp h
    obtain ⟨hB, -⟩ := Bool.and_eq_true_iff.mp hBs
    rw [encode_of_two_operands rfl, List.cons_append, List.append_assoc]
    exact decode2_eq_ok _ (takeOperand_encode hA _) (takeOperand_encode hB rest)
  | eq A B C | gt A B C | add A B C | mult A B C | mod A B C | and A B C | or A B C =>
    obtain ⟨hA, hBCs⟩ := Bool.and_eq_true_iff.mp h
    obtain ⟨hB, hCs⟩ := Bool.and_eq_true_iff.mp hBCs
    obtain ⟨hC, -⟩ := Bool.and_eq_true_iff.mp hCs
    rw [encode_of_three_operands rfl, List.cons_append, List.append_assoc, List.append_assoc]
    exact decode3_eq_ok _ (takeOperand_encode hA _) (takeOperand_encode hB _) (takeOperand_encode hC rest)

/-- Settles O54: the words of two instructions decode to both, so equal words are of one instruction. -/
theorem decodeOfEncode : Obligations.DecodeOfEncode := by
  refine ⟨fun _ => decode_encode, fun i j hi hj hij => ?_⟩
  have hboth : (Except.ok (i, []) : Except DecodeError (Instr × List Word)) = .ok (j, []) := by
    rw [← decode_encode [] hi, hij, decode_encode [] hj]
  exact (Prod.mk.inj (Except.ok.inj hboth)).1

/-! ### Encoding what was decoded -/

section EncodeDecode

variable {op : Word} {ws rest : List Word} {i : Instr}

theorem encode_of_decode1 {f : Operand → Instr} (h : decode1 f ws = .ok (i, rest))
    (hf : ∀ A, (f A).encode = op :: A.encode) : i.encode ++ rest = op :: ws := by
  rcases hA : takeOperand ws with ⟨A, ws₁⟩
  cases (decode1_eq_ok f hA).symm.trans h
  rw [hf, List.cons_append, encode_of_takeOperand hA]

theorem encode_of_decode2 {f : Operand → Operand → Instr} (h : decode2 f ws = .ok (i, rest))
    (hf : ∀ A B, (f A B).encode = op :: (A.encode ++ B.encode)) : i.encode ++ rest = op :: ws := by
  rcases hA : takeOperand ws with ⟨A, ws₁⟩
  rcases hB : takeOperand ws₁ with ⟨B, ws₂⟩
  cases (decode2_eq_ok f hA hB).symm.trans h
  rw [hf, List.cons_append, List.append_assoc, encode_of_takeOperand hB, encode_of_takeOperand hA]

theorem encode_of_decode3 {f : Operand → Operand → Operand → Instr} (h : decode3 f ws = .ok (i, rest))
    (hf : ∀ A B C, (f A B C).encode = op :: (A.encode ++ (B.encode ++ C.encode))) : i.encode ++ rest = op :: ws := by
  rcases hA : takeOperand ws with ⟨A, ws₁⟩
  rcases hB : takeOperand ws₁ with ⟨B, ws₂⟩
  rcases hC : takeOperand ws₂ with ⟨C, ws₃⟩
  cases (decode3_eq_ok f hA hB hC).symm.trans h
  rw [hf, List.cons_append, List.append_assoc, List.append_assoc, encode_of_takeOperand hC, encode_of_takeOperand hB,
    encode_of_takeOperand hA]

/-- No bit is dropped: the opcode word is the instruction's, and every operand word is sorted without loss. -/
theorem encode_of_decode (h : decode ws = .ok (i, rest)) : i.encode ++ rest = ws := by
  cases ws with
  | nil => cases h
  | cons op ws =>
    by_cases hop : op.toNat ≤ 21
    · obtain ⟨code, hcode, rfl⟩ : ∃ code ≤ 21, op = BitVec.ofNat 16 code :=
        ⟨op.toNat, hop, by simp only [BitVec.ofNat_toNat, BitVec.setWidth_eq]⟩
      match code with
      | 0 | 18 | 21 => cases h; rfl
      | 2 | 3 | 6 | 17 | 19 | 20 => exact encode_of_decode1 h fun _ => encode_of_single_operand rfl
      | 1 | 7 | 8 | 14 | 15 | 16 => exact encode_of_decode2 h fun _ _ => encode_of_two_operands rfl
      | 4 | 5 | 9 | 10 | 11 | 12 | 13 => exact encode_of_decode3 h fun _ _ _ => encode_of_three_operands rfl
      | _ + 22 => omega
    · rw [decode_badOpcode_of_lt ws (by omega)] at h
      cases h

end EncodeDecode

/-- Settles O55. -/
theorem encodeOfDecode : Obligations.EncodeOfDecode :=
  fun _ _ _ => encode_of_decode

/-- Settles O57, by running the decoder on each of the eight encodings. -/
theorem sampleWordsDecode : Obligations.SampleWordsDecode :=
  ⟨rfl, rfl, rfl, rfl, rfl, rfl, rfl, rfl⟩

end Sys2Proof
end

section
/-!
PROOFS. The operand phase of every instruction: the first failing operand in source order decides (R101 phase 3, R105 item 3).
-/
namespace Sys2Proof.Machine

/-- Every meaning checks its operands in source order before anything else. -/
theorem exec_raisesFirstFault (i : Instr) (s : State) : RaisesFirstFault s i.roles (exec i s) := by
  cases i with
  | halt | ret | noop => exact .nil _
  | push | jmp | call | out => exact .cons_resolve fun _ => .nil _
  | pop | input => exact .cons_dest fun _ => .nil _
  | jt | jf | wmem => exact .cons_resolve fun _ => .cons_resolve fun _ => .nil _
  | set | not | rmem => exact .cons_dest fun _ => .cons_resolve fun _ => .nil _
  | eq | gt | add | mult | mod | and | or =>
    exact .cons_dest fun _ => .cons_resolve fun _ => .cons_resolve fun _ => .nil _

theorem raisesOperandErrors (i : Instr) : i.RaisesOperandErrors :=
  raisesOperandErrors_of_first (exec_raisesFirstFault i)

/-- Settles O8. -/
theorem firstFailingOperandDecides : Obligations.FirstFailingOperandDecides :=
  fun i s e h => exec_raisesFirstFault i s e h

end Sys2Proof.Machine
end

section
/-!
PROOFS. Frames: what an instruction leaves as it was (R23, R28, R29, R32, R36, R53, R107), as cases over `Effect`.
-/
namespace Sys2Proof.Machine

/-! ### The parts of the state after an effect -/

theorem State.exists_of_pop_eq_ok {s u : State} {v : Word} (h : s.pop = .ok (v, u)) :
    ∃ rest, s.stack = rest ++ [v] ∧ u = { s with stack := rest } :=
  ⟨u.stack, State.pop_eq_ok.mp h⟩

theorem State.exists_of_takeInput_eq_some {s u : State} {c : Byte} (h : s.takeInput = .ok (some (c, u))) :
    ∃ rest, s.inp = c :: rest ∧ u = { s with inp := rest } :=
  ⟨u.inp, State.takeInput_eq_some.mp h⟩

section Frames

variable {s t : State} {i : Instr}

theorem Effect.regs_cases (h : Effect s i t) :
    t.regs = s.regs ∨ ∃ d v, i.target? = some d ∧ t.regs = s.regs.set d v := by
  cases h with
  | set hA _ | eq hA _ _ | gt hA _ _ | add hA _ _ | mult hA _ _ | mod hA _ _ _ | and hA _ _ | or hA _ _ | not hA _
  | rmem hA _ _ =>
    cases dest_eq_ok.mp hA
    exact .inr ⟨_, _, rfl, rfl⟩
  | pop hA hp =>
    cases dest_eq_ok.mp hA
    obtain ⟨rest, -, rfl⟩ := State.exists_of_pop_eq_ok hp
    exact .inr ⟨_, _, rfl, rfl⟩
  | input hA hin =>
    cases dest_eq_ok.mp hA
    obtain ⟨rest, -, rfl⟩ := State.exists_of_takeInput_eq_some hin
    exact .inr ⟨_, _, rfl, rfl⟩
  | ret hp =>
    obtain ⟨rest, -, rfl⟩ := State.exists_of_pop_eq_ok hp
    exact .inl rfl
  | jt | jf => exact .inl (by split <;> rfl)
  | raise | halt | push | jmp | wmem | call | out | noop => exact .inl rfl

theorem Effect.mem_cases (h : Effect s i t) :
    t.mem = s.mem ∨ ∃ a v, s.storeTo? i = some a ∧ memWrite s.mem a v = .ok t.mem := by
  cases h with
  | wmem hA _ hw => exact .inr ⟨_, _, by simp only [State.storeTo?, hA], hw⟩
  | pop _ hp | ret hp =>
    obtain ⟨rest, -, rfl⟩ := State.exists_of_pop_eq_ok hp
    exact .inl rfl
  | input _ hin =>
    obtain ⟨rest, -, rfl⟩ := State.exists_of_takeInput_eq_some hin
    exact .inl rfl
  | jt | jf => exact .inl (by split <;> rfl)
  | _ => exact .inl rfl

theorem Effect.stack_cases (h : Effect s i t) :
    t.stack = s.stack ∨
    (((∃ A, i = .push A) ∨ ∃ A, i = .call A) ∧ ∃ v, t.stack = s.stack ++ [v]) ∨
    (((∃ A, i = .pop A) ∨ i = .ret) ∧ ∃ v, s.stack = t.stack ++ [v]) := by
  cases h with
  | push => exact .inr (.inl ⟨.inl ⟨_, rfl⟩, _, rfl⟩)
  | call => exact .inr (.inl ⟨.inr ⟨_, rfl⟩, _, rfl⟩)
  | pop _ hp =>
    obtain ⟨rest, hstack, rfl⟩ := State.exists_of_pop_eq_ok hp
    exact .inr (.inr ⟨.inl ⟨_, rfl⟩, _, hstack⟩)
  | ret hp =>
    obtain ⟨rest, hstack, rfl⟩ := State.exists_of_pop_eq_ok hp
    exact .inr (.inr ⟨.inr rfl, _, hstack⟩)
  | input _ hin =>
    obtain ⟨rest, -, rfl⟩ := State.exists_of_takeInput_eq_some hin
    exact .inl rfl
  | jt | jf => exact .inl (by split <;> rfl)
  | _ => exact .inl rfl

theorem Effect.out_cases (h : Effect s i t) :
    t.out = s.out ∨ ∃ A a, i = .out A ∧ resolve s A = .ok a ∧ t.out = s.out ++ [a] := by
  cases h with
  | out hA => exact .inr ⟨_, _, rfl, hA, rfl⟩
  | pop _ hp | ret hp =>
    obtain ⟨rest, -, rfl⟩ := State.exists_of_pop_eq_ok hp
    exact .inl rfl
  | input _ hin =>
    obtain ⟨rest, -, rfl⟩ := State.exists_of_takeInput_eq_some hin
    exact .inl rfl
  | jt | jf => exact .inl (by split <;> rfl)
  | _ => exact .inl rfl

theorem Effect.inp_cases (h : Effect s i t) :
    (t.inp = s.inp ∨ ∃ A c, i = .input A ∧ s.inp = c :: t.inp) ∧ t.inpEnd = s.inpEnd := by
  cases h with
  | input _ hin =>
    obtain ⟨rest, hinp, rfl⟩ := State.exists_of_takeInput_eq_some hin
    exact ⟨.inr ⟨_, _, rfl, hinp⟩, rfl⟩
  | pop _ hp | ret hp =>
    obtain ⟨rest, -, rfl⟩ := State.exists_of_pop_eq_ok hp
    exact ⟨.inl rfl, rfl⟩
  | jt | jf => split <;> exact ⟨.inl rfl, rfl⟩
  | _ => exact ⟨.inl rfl, rfl⟩

theorem Effect.pc_cases (h : Effect s i t) :
    (t.run = s.run ∧ (i.redirects = true ∨ t.pc = s.pc + BitVec.ofNat 16 i.length)) ∨
    (i = .halt ∧ t = s.halt) ∨ ∃ k, t = s.raise k := by
  cases h with
  | raise => exact .inr (.inr ⟨_, rfl⟩)
  | halt => exact .inr (.inl ⟨rfl, rfl⟩)
  | jmp | call => exact .inl ⟨rfl, .inl rfl⟩
  | jt | jf => exact .inl ⟨by split <;> rfl, .inl rfl⟩
  | ret hp =>
    obtain ⟨rest, -, rfl⟩ := State.exists_of_pop_eq_ok hp
    exact .inl ⟨rfl, .inl rfl⟩
  | pop _ hp =>
    obtain ⟨rest, -, rfl⟩ := State.exists_of_pop_eq_ok hp
    exact .inl ⟨rfl, .inr rfl⟩
  | input _ hin =>
    obtain ⟨rest, -, rfl⟩ := State.exists_of_takeInput_eq_some hin
    exact .inl ⟨rfl, .inr rfl⟩
  | _ => exact .inl ⟨rfl, .inr rfl⟩

end Frames

/-! ### The frames -/

/-- Settles O34: the one register set is the destination. -/
theorem registerFrame : Obligations.RegisterFrame := by
  intro i s t r h hr
  rcases (exec_effect h).regs_cases with hsame | ⟨d, v, hd, hset⟩
  · rw [hsame]
  · have hrd : r ≠ d := fun heq => hr (heq ▸ hd)
    rw [hset, RegFile.get_set, if_neg hrd]

/-- Settles O35: the one address written is the one stored to. -/
theorem memoryFrame : Obligations.MemoryFrame := by
  intro i s t a h ha
  rcases (exec_effect h).mem_cases with hsame | ⟨b, v, hb, hwrite⟩
  · rw [hsame]
  · have hab : a ≠ b := fun heq => ha (heq ▸ hb)
    rw [(memWrite_eq_ok.mp hwrite).2, Memory.read_write_ne s.mem v hab]

/-- Settles O36. -/
theorem stackFrame : Obligations.StackFrame :=
  fun _ _ _ h => (exec_effect h).stack_cases

/-- Settles O37. -/
theorem portFrame : Obligations.PortFrame :=
  fun _ _ _ h => ⟨(exec_effect h).out_cases, (exec_effect h).inp_cases⟩

/-- Settles O38. -/
theorem pcAndRunFrame : Obligations.PcAndRunFrame :=
  fun _ _ _ h => (exec_effect h).pc_cases

end Sys2Proof.Machine
end

section
/-!
PROOFS. What a fetched instruction says about the words at `pc`: where they end (R26, R59) and what the first is (R82).
-/
namespace Sys2Proof.Machine

theorem fetchWords_length_le_sub (m : Memory) (a n : Nat) : (fetchWords m a n).length ≤ 32768 - a := by
  induction n generalizing a with
  | zero => exact Nat.zero_le _
  | succ n ih =>
    by_cases ha : a < 32768
    · have := ih (a + 1)
      rw [fetchWords_succ n ha, List.length_cons]
      omega
    · rw [fetchWords_above _ (Nat.le_of_not_lt ha)]
      exact Nat.zero_le _

theorem memRead_of_fetchWords {m : Memory} {a n : Nat} {w : Word} {ws : List Word}
    (h : fetchWords m a (n + 1) = w :: ws) : memRead m a = .ok w := by
  by_cases ha : a < 32768
  · rw [fetchWords_succ n ha] at h
    exact memRead_eq_ok.mpr ⟨ha, (List.cons.inj h).1⟩
  · rw [fetchWords_above _ (Nat.le_of_not_lt ha)] at h
    cases h

section Fetch

variable {s : State} {i : Instr}

/-- A fetched instruction's own words are the first of those at `pc`. -/
theorem fetchWords_of_fetch (h : fetch s = .ok i) :
    ∃ rest, fetchWords s.mem s.pc.toNat 4 = i.encode ++ rest := by
  obtain ⟨rest, hdecode⟩ := decode_of_fetch h
  exact ⟨rest, (encode_of_decode hdecode).symm⟩

theorem memRead_of_fetch (h : fetch s = .ok i) : memRead s.mem s.pc.toNat = .ok i.opcode := by
  obtain ⟨rest, hwords⟩ := fetchWords_of_fetch h
  exact memRead_of_fetchWords hwords

/-- An instruction with all its operands lies below 32768. -/
theorem pc_add_length_le (h : fetch s = .ok i) (hwf : i.wellFormed = true) : s.pc.toNat + i.length ≤ 32768 := by
  obtain ⟨rest, hwords⟩ := fetchWords_of_fetch h
  have hbound := fetchWords_length_le_sub s.mem s.pc.toNat 4
  have hlength : i.encode.length = i.length := Laws.EncodeLength.of_roles hwf
  have hpos : 0 < i.length := by unfold Instr.length; omega
  rw [hwords, List.length_append] at hbound
  omega

end Fetch

end Sys2Proof.Machine
end

section
/-!
PROOFS. The invariants: every step keeps the model's own (R29, R32, R183), and the narrow words of R22 with its exceptions.
-/
namespace Sys2Proof.Machine

/-! ### The invariant of the model -/

theorem step_mem_wf {s t : State} (hwf : Memory.wf s.mem) (h : step s = .next t) : Memory.wf t.mem := by
  obtain ⟨-, ⟨i, -, hexec⟩ | ⟨e, -, rfl⟩⟩ := step_eq_next h
  · rcases (exec_effect hexec).mem_cases with hsame | ⟨a, v, -, hwrite⟩
    · exact hsame ▸ hwf
    · exact memWrite_wf hwf hwrite
  · exact hwf

/-- Settles O49: memory changes by a write alone, and an error of the step is taken at the `pc` that stays. -/
theorem invariantKept : Obligations.InvariantKept := by
  rintro s t ⟨hwf, -⟩ hstep
  refine ⟨step_mem_wf hwf hstep, fun k fpc hrun => ?_⟩
  obtain ⟨rfl, rfl⟩ := eq_raise_of_step_run_haltedError hstep hrun
  exact ⟨rfl, fun hk => step_run_ne_registerIndexOutOfRange hstep s.pc (hk ▸ hrun)⟩

/-! ### Narrow values -/

theorem narrow_zero : Narrow 0 := by unfold Narrow; decide

theorem narrow_addValue (b c : Word) : Narrow (addValue b c) := by
  unfold Narrow
  rw [addValue_toNat]
  omega

theorem narrow_multValue (b c : Word) : Narrow (multValue b c) := by
  unfold Narrow
  rw [multValue_toNat]
  omega

theorem narrow_notValue (b : Word) : Narrow (notValue b) := by
  unfold Narrow
  rw [notValue_toNat]
  omega

theorem eqFlag_eq_zero_or_one (b c : Word) : eqFlag b c = 0 ∨ eqFlag b c = 1 := by
  unfold eqFlag
  split
  · exact .inr rfl
  · exact .inl rfl

theorem gtFlag_eq_zero_or_one (b c : Word) : gtFlag b c = 0 ∨ gtFlag b c = 1 := by
  unfold gtFlag
  split
  · exact .inr rfl
  · exact .inl rfl

theorem narrow_of_eq_zero_or_one {v : Word} (h : v = 0 ∨ v = 1) : Narrow v := by
  rcases h with rfl | rfl <;> unfold Narrow <;> decide

theorem modValue_le {b c v : Word} (h : modValue b c = .ok v) : v.toNat ≤ b.toNat := by
  rw [(modValue_eq_ok.mp h).2]
  exact Nat.mod_le _ _

theorem andValue_le_left (b c : Word) : (andValue b c).toNat ≤ b.toNat := by
  rw [andValue, BitVec.toNat_and]
  exact Nat.and_le_left

theorem andValue_le_right (b c : Word) : (andValue b c).toNat ≤ c.toNat := by
  rw [andValue, BitVec.toNat_and]
  exact Nat.and_le_right

theorem narrow_orValue {b c : Word} (hb : Narrow b) (hc : Narrow c) : Narrow (orValue b c) := by
  unfold Narrow
  rw [orValue, BitVec.toNat_or]
  exact Nat.le_of_lt_succ (Nat.or_lt_two_pow (n := 15) (Nat.lt_succ_of_le hb) (Nat.lt_succ_of_le hc))

theorem narrow_setWidth_byte (c : Byte) : Narrow (c.setWidth 16) := by
  have := c.isLt
  unfold Narrow
  rw [BitVec.toNat_setWidth]
  omega

/-! ### Narrow states -/

section NarrowStates

variable {s u : State} {v : Word}

theorem narrow_of_resolve {A : Operand} (hs : s.Narrow) (h : resolve s A = .ok v) : Narrow v := by
  rcases resolve_eq_ok.mp h with ⟨n, -, rfl⟩ | ⟨r, -, rfl⟩
  · have := n.isLt
    unfold Narrow
    rw [BitVec.toNat_setWidth]
    omega
  · exact hs.1 r

theorem State.Narrow.setReg (hs : s.Narrow) (d : Reg) (hv : Sys2Proof.Narrow v) : (s.setReg d v).Narrow := by
  refine ⟨fun r => ?_, hs.2⟩
  rw [State.setReg_regs, RegFile.get_set]
  split
  · exact hv
  · exact hs.1 r

theorem State.Narrow.push (hs : s.Narrow) (hv : Sys2Proof.Narrow v) : (s.push v).Narrow := by
  refine ⟨hs.1, fun x hx => ?_⟩
  rcases List.mem_append.mp hx with hx | hx
  · exact hs.2 x hx
  · exact List.mem_singleton.mp hx ▸ hv

theorem State.Narrow.pop (hs : s.Narrow) (h : s.pop = .ok (v, u)) : Sys2Proof.Narrow v ∧ u.Narrow := by
  obtain ⟨rest, hstack, rfl⟩ := State.exists_of_pop_eq_ok h
  have hmem : ∀ x ∈ rest ++ [v], Sys2Proof.Narrow x := hstack ▸ hs.2
  exact ⟨hmem v (by simp), hs.1, fun x hx => hmem x (List.mem_append_left _ hx)⟩

/-- Every effect writes narrow words to registers and stack, if the word an `rmem` loads and the address a `call` pushes
are narrow. -/
theorem Effect.narrow {t : State} {i : Instr} (h : Effect s i t) (hs : s.Narrow)
    (hrmem : ∀ {A B b v}, i = .rmem A B → resolve s B = .ok b → memRead s.mem b.toNat = .ok v → Sys2Proof.Narrow v)
    (hcall : ∀ {A}, i = .call A → i.wellFormed = true → Sys2Proof.Narrow (s.pc + 2)) : t.Narrow := by
  cases h with
  | raise | halt | jmp | wmem | out | noop => exact hs
  | jt | jf => split <;> exact hs
  | set _ hB => exact hs.setReg _ (narrow_of_resolve hs hB)
  | eq => exact hs.setReg _ (narrow_of_eq_zero_or_one (eqFlag_eq_zero_or_one _ _))
  | gt => exact hs.setReg _ (narrow_of_eq_zero_or_one (gtFlag_eq_zero_or_one _ _))
  | add => exact hs.setReg _ (narrow_addValue _ _)
  | mult => exact hs.setReg _ (narrow_multValue _ _)
  | not => exact hs.setReg _ (narrow_notValue _)
  | mod _ hB _ hv => exact hs.setReg _ (Nat.le_trans (modValue_le hv) (narrow_of_resolve hs hB))
  | and _ hB _ => exact hs.setReg _ (Nat.le_trans (andValue_le_left _ _) (narrow_of_resolve hs hB))
  | or _ hB hC => exact hs.setReg _ (narrow_orValue (narrow_of_resolve hs hB) (narrow_of_resolve hs hC))
  | rmem _ hB hv => exact hs.setReg _ (hrmem rfl hB hv)
  | input _ hin =>
    obtain ⟨rest, -, rfl⟩ := State.exists_of_takeInput_eq_some hin
    exact State.Narrow.setReg (s := { s with inp := rest }) hs _ (narrow_setWidth_byte _)
  | push hA => exact hs.push (narrow_of_resolve hs hA)
  | pop _ hp => exact (hs.pop hp).2.setReg _ (hs.pop hp).1
  | ret hp => exact (hs.pop hp).2
  | @call A a hA =>
    have hwf : (Instr.call A).wellFormed = true := by
      rcases resolve_cases s A with ⟨_, -, -, hok⟩ | ⟨e, he, -, -⟩
      · exact Bool.and_eq_true_iff.mpr ⟨hok, rfl⟩
      · cases hA.symm.trans he
    exact hs.push (hcall rfl hwf)

/-- The word behind a `call` that is fetched whole is at most at 32768, and at 32768 only for the `call` at 32766. -/
theorem narrow_pc_add_two_of_fetch_call {A : Operand} (h : fetch s = .ok (.call A))
    (hwf : (Instr.call A).wellFormed = true) (hpc : s.pc ≠ 32766) : Narrow (s.pc + 2) := by
  have hbound : s.pc.toNat + 2 ≤ 32768 := pc_add_length_le h hwf
  have hne : s.pc.toNat ≠ 32766 := fun heq => hpc (BitVec.eq_of_toNat_eq heq)
  show (s.pc.toNat + 2) % 65536 ≤ 32767
  omega

end NarrowStates

/-- Settles O48: the two clauses of `State.MakesWide` are the two ways an effect writes a wide word. -/
theorem narrowInvariant : Obligations.NarrowInvariant := by
  intro s t hs hwide hstep
  obtain ⟨hrmem, hcall⟩ := not_or.mp hwide
  obtain ⟨-, ⟨i, hfetch, hexec⟩ | ⟨e, -, rfl⟩⟩ := step_eq_next hstep
  · refine (exec_effect hexec).narrow hs ?_ ?_
    · rintro A B b v rfl hB hv
      exact Classical.byContradiction fun hnot => hrmem ⟨A, B, b, v, hfetch, hB, hv, hnot⟩
    · rintro A rfl hwf
      exact narrow_pc_add_two_of_fetch_call hfetch hwf fun hpc => hcall ⟨A, hfetch, hpc⟩
  · exact hs

/-! ### The start of a run -/

theorem State.reset_narrow : State.reset.Narrow :=
  ⟨fun r => by rw [State.reset_get]; exact narrow_zero, nofun⟩

/-- Settles O50: reset sets the registers, the stack and the run state, and placing the image keeps memory canonical. -/
theorem invariantsAtReset : Obligations.InvariantsAtReset :=
  ⟨⟨⟨State.reset_mem_wf, nofun⟩, State.reset_narrow⟩,
    fun image _ _ => ⟨⟨placeWords_wf image 0 State.reset_mem_wf, nofun⟩, State.reset_narrow⟩⟩

end Sys2Proof.Machine
end

section
/-!
PROOFS. The step as the meaning of the fetched instruction: which instruction that is (R80, R112), when there is a step (R35,
R89, R214), what a sequential step does to `pc` (R26), and how a run ends normally (R170, R198).
-/
namespace Sys2Proof.Machine

/-! ### From the fetch to the meaning -/

section Step

variable {s t : State} {i : Instr}

theorem step_of_fetch (hrun : s.run = .running) (h : fetch s = .ok i) : step s = exec i s := by
  rw [step_running hrun, h, orRaise_ok]

theorem step_of_fetch_error {e : ErrorKind} (hrun : s.run = .running) (h : fetch s = .error e) :
    step s = .next (s.raise e) := by
  rw [step_running hrun, h, orRaise_error]

/-- An instruction has at most three operands. -/
theorem length_le_four (i : Instr) : i.length ≤ 4 := by
  cases i <;> exact Nat.le_of_ble_eq_true rfl

/-- The words that stand at `pc` are fetched, and what stands behind them is not decoded. -/
theorem fetch_of_stored (hwf : i.wellFormed = true)
    (hmem : ∀ k, (h : k < i.encode.length) → memRead s.mem (s.pc.toNat + k) = .ok i.encode[k]) : fetch s = .ok i := by
  have hlength : i.encode.length ≤ 4 := by
    rw [Laws.EncodeLength.of_roles hwf]
    exact length_le_four i
  obtain ⟨rest, hwords⟩ := fetchWords_prefix i.encode hlength hmem
  exact fetch_of_decode (hwords ▸ decode_encode rest hwf)

/-- Settles O41. -/
theorem stepRunsDecoded : Obligations.StepRunsDecoded :=
  fun _ _ _ hrun h => step_of_fetch hrun (fetch_of_decode h)

/-- Settles O42. -/
theorem stepRunsStoredInstruction : Obligations.StepRunsStoredInstruction :=
  fun _ _ hrun hwf hmem => step_of_fetch hrun (fetch_of_stored hwf hmem)

/-! ### When there is a step -/

theorem exists_next_orRaise {α : Type} {x : Except ErrorKind α} {k : α → Host.Outcome State Fault Refusal}
    (h : ∀ v, ∃ t, k v = .next t) : ∃ t, orRaise s x k = .next t := by
  cases x with
  | ok v => exact h v
  | error e => exact ⟨_, rfl⟩

theorem exec_input (A : Operand) (s : State) : exec (.input A) s =
    orRaise s (dest A) fun d => orRaise s s.takeInput fun answer =>
      match answer with
      | some (c, s') => .next ((s'.setReg d (c.setWidth 16)).advance 2)
      | none => .fault .holding := rfl

/-- Only the hold of `in` is no step: every other check that fails is an error, which is a next state. -/
theorem exec_next_or_hold (i : Instr) (s : State) :
    (∃ t, exec i s = .next t) ∨ ∃ d, i = .input (.reg d) ∧ s.takeInput = .ok none := by
  cases i with
  | halt | noop => exact .inl ⟨_, rfl⟩
  | push | jmp | call | out | ret => exact .inl (exists_next_orRaise fun _ => ⟨_, rfl⟩)
  | set | pop | jt | jf | not =>
    exact .inl (exists_next_orRaise fun _ => exists_next_orRaise fun _ => ⟨_, rfl⟩)
  | eq | gt | add | mult | and | or | rmem | wmem =>
    exact .inl (exists_next_orRaise fun _ => exists_next_orRaise fun _ => exists_next_orRaise fun _ => ⟨_, rfl⟩)
  | mod =>
    exact .inl (exists_next_orRaise fun _ => exists_next_orRaise fun _ => exists_next_orRaise fun _ =>
      exists_next_orRaise fun _ => ⟨_, rfl⟩)
  | input A =>
    rw [exec_input]
    cases hA : dest A with
    | error e => exact .inl ⟨_, rfl⟩
    | ok d =>
      cases hin : s.takeInput with
      | error e => exact .inl ⟨_, rfl⟩
      | ok answer =>
        cases answer with
        | some => exact .inl ⟨_, rfl⟩
        | none => exact .inr ⟨d, by rw [dest_eq_ok.mp hA], rfl⟩

/-- The hold of R165: an `in` with a valid destination stands at `pc`, and the input source has no answer. -/
theorem holding_iff : s.holding = true ↔
    s.run = .running ∧ ∃ d, fetch s = .ok (.input (.reg d)) ∧ s.takeInput = .ok none := by
  constructor
  · intro h
    unfold State.holding at h
    split at h
    · next hrun hfetch hin => exact ⟨hrun, _, hfetch, hin⟩
    · cases h
  · rintro ⟨hrun, d, hfetch, hin⟩
    simp only [State.holding, hrun, hfetch, hin]

theorem step_of_holding (h : s.holding = true) : step s = .fault .holding := by
  obtain ⟨hrun, d, hfetch, hin⟩ := holding_iff.mp h
  rw [step_of_fetch hrun hfetch, exec_input, dest_reg, orRaise_ok, hin, orRaise_ok]

/-- Settles O40. -/
theorem runningStatesStep : Obligations.RunningStatesStep := by
  refine fun s hrun => ⟨fun hnot => ?_, step_of_holding⟩
  cases hfetch : fetch s with
  | error e => exact ⟨_, step_of_fetch_error hrun hfetch⟩
  | ok i =>
    rw [step_of_fetch hrun hfetch]
    rcases exec_next_or_hold i s with hnext | ⟨d, rfl, hin⟩
    · exact hnext
    · exact absurd (holding_iff.mpr ⟨hrun, d, hfetch, hin⟩) (Bool.eq_false_iff.mp hnot)

/-! ### A sequential step, and the normal end -/

/-- An instruction that completes has only operands its roles accept. -/
theorem wellFormed_of_exec_running (h : exec i s = .next t) (hrun : t.run = .running) : i.wellFormed = true := by
  cases hwf : i.wellFormed with
  | true => rfl
  | false =>
    obtain ⟨e, -, hraise⟩ := raisesOperandErrors i s hwf
    cases h.symm.trans hraise
    cases hrun

/-- Settles O45: the instruction's words end below 32768, so the 16-bit addition does not wrap. -/
theorem sequentialPcBound : Obligations.SequentialPcBound := by
  intro s t i hrun hfetch hred hstep htrun
  have hexec : exec i s = .next t := (step_of_fetch hrun hfetch).symm.trans hstep
  have hbound := pc_add_length_le hfetch (wellFormed_of_exec_running hexec htrun)
  rcases (exec_effect hexec).pc_cases with ⟨-, hjump | hpc⟩ | ⟨-, rfl⟩ | ⟨k, rfl⟩
  · cases hred.symm.trans hjump
  · have hsum : t.pc.toNat = s.pc.toNat + i.length := by
      rw [hpc, BitVec.toNat_add, BitVec.toNat_ofNat]
      omega
    exact ⟨hsum, hsum ▸ hbound⟩
  · cases htrun
  · cases htrun

/-- Settles O47: of the effects `halt` alone leaves that run state, and a fetched `halt` is the word 0 at `pc`. -/
theorem onlyHaltEndsNormally : Obligations.OnlyHaltEndsNormally := by
  intro s t hstep hended
  obtain ⟨hrun, ⟨i, hfetch, hexec⟩ | ⟨e, -, rfl⟩⟩ := step_eq_next hstep
  · rcases (exec_effect hexec).run_cases with ⟨k, -, rfl⟩ | ⟨rfl, rfl⟩ | hsame
    · cases hended
    · exact ⟨memRead_of_fetch hfetch, rfl⟩
    · cases hended.symm.trans (hsame.trans hrun)
  · cases hended

end Step

end Sys2Proof.Machine
end

section
/-!
PROOFS. The top of memory (R59, R101 phase 1, R184): no address wraps, neither `pc` nor that of an operand.
-/
namespace Sys2Proof.Machine

/-! ### An operand beyond the top -/

/-- An operand its role accepts raises no error. -/
theorem fault_of_okAs {A : Operand} {ρ : Role} (h : A.okAs ρ = true) : A.fault ρ = none := by
  cases ρ with
  | dst =>
    rcases dest_cases A with ⟨_, -, hnone, -⟩ | ⟨_, -, -, hbad⟩
    · exact hnone
    · cases h.symm.trans hbad
  | src =>
    rcases resolve_cases .reset A with ⟨_, -, hnone, -⟩ | ⟨_, -, -, hbad⟩
    · exact hnone
    · cases h.symm.trans hbad

/-- When the operands before it are valid, an operand without a word is the first that fails. -/
theorem operandFault_of_beyond {i : Instr} {ps qs : List (Role × Operand)} {ρ : Role}
    (hroles : i.roles = ps ++ (ρ, .beyond) :: qs) (hps : ∀ p ∈ ps, p.2.okAs p.1 = true) :
    i.operandFault = some .invalidAddress := by
  have hnone : (ps.findSome? fun p => p.2.fault p.1) = none :=
    List.findSome?_eq_none_iff.mpr fun p hp => fault_of_okAs (hps p hp)
  have hbeyond : Operand.beyond.fault ρ = some .invalidAddress := by cases ρ <;> rfl
  rw [Instr.operandFault, hroles, List.findSome?_append, hnone, Option.none_or, List.findSome?_cons, hbeyond]

theorem step_of_pc_above {s : State} (hrun : s.run = .running) (hpc : 32767 < s.pc.toNat) :
    step s = .next (s.raise .invalidAddress) := by
  apply step_of_fetch_error hrun
  rw [fetch, fetchWords_above 4 hpc]
  rfl

/-- The words up to the top of memory decode to an instruction whose next operand would lie above it. -/
theorem step_of_operand_beyond {s : State} {i : Instr} {ws rest : List Word} {ps qs : List (Role × Operand)} {ρ : Role}
    (hrun : s.run = .running) (hwords : fetchWords s.mem s.pc.toNat 4 = ws) (hdecode : decode ws = .ok (i, rest))
    (hroles : i.roles = ps ++ (ρ, .beyond) :: qs) (hps : ∀ p ∈ ps, p.2.okAs p.1 = true) :
    step s = .next (s.raise .invalidAddress) := by
  rw [step_of_fetch hrun (fetch_of_decode (hwords ▸ hdecode))]
  exact exec_raisesFirstFault i s _ (operandFault_of_beyond hroles hps)

/-! ### Operand words that fit their roles -/

theorem okAs_dst_ofWord {w : Word} (hlow : 32768 ≤ w.toNat) (hhigh : w.toNat ≤ 32775) :
    (Operand.ofWord w).okAs .dst = true := by
  rcases Operand.ofWord_cases w with ⟨hw, -⟩ | ⟨r, -, h⟩ | ⟨hw, -⟩
  · omega
  · rw [h]; rfl
  · omega

theorem okAs_src_ofWord {w : Word} (hhigh : w.toNat ≤ 32775) : (Operand.ofWord w).okAs .src = true := by
  rcases Operand.ofWord_cases w with ⟨-, h⟩ | ⟨r, -, h⟩ | ⟨hw, -⟩
  · rw [h]; rfl
  · rw [h]; rfl
  · omega

/-! ### The rows of the opcode table, cut short by the top -/

/-- A word is one of the numerals its value is. -/
theorem exists_eq_ofNat {P : Nat → Prop} {w : Word} (h : P w.toNat) : ∃ n, P n ∧ w = BitVec.ofNat 16 n :=
  ⟨w.toNat, h, by simp only [BitVec.ofNat_toNat, BitVec.setWidth_eq]⟩

theorem decode_without_operands {op : Word} (hop : op.toNat ≤ 21) (h0 : op ≠ 0) (h18 : op ≠ 18) (h21 : op ≠ 21) :
    ∃ i rest ρ qs, decode [op] = .ok (i, rest) ∧ i.roles = (ρ, .beyond) :: qs := by
  obtain ⟨code, hcode, rfl⟩ := exists_eq_ofNat (P := (· ≤ 21)) hop
  match code with
  | 0 => exact absurd rfl h0
  | 18 => exact absurd rfl h18
  | 21 => exact absurd rfl h21
  | 1 | 2 | 3 | 4 | 5 | 6 | 7 | 8 | 9 | 10 | 11 | 12 | 13 | 14 | 15 | 16 | 17 | 19 | 20 =>
    exact ⟨_, _, _, _, rfl, rfl⟩
  | n + 22 => exact absurd hcode (by simp)

theorem decode_with_dest_alone {op : Word} (A : Word) (hop : op.toNat ∈ [1, 4, 5, 9, 10, 11, 12, 13, 14, 15]) :
    ∃ i rest qs, decode [op, A] = .ok (i, rest) ∧ i.roles = (.dst, Operand.ofWord A) :: (.src, .beyond) :: qs := by
  obtain ⟨code, hcode, rfl⟩ := exists_eq_ofNat hop
  simp only [List.mem_cons, List.not_mem_nil, or_false] at hcode
  rcases hcode with rfl | rfl | rfl | rfl | rfl | rfl | rfl | rfl | rfl | rfl <;> exact ⟨_, _, _, rfl, rfl⟩

theorem decode_with_source_alone {op : Word} (A : Word) (hop : op.toNat ∈ [7, 8, 16]) :
    ∃ i rest qs, decode [op, A] = .ok (i, rest) ∧ i.roles = (.src, Operand.ofWord A) :: (.src, .beyond) :: qs := by
  obtain ⟨code, hcode, rfl⟩ := exists_eq_ofNat hop
  simp only [List.mem_cons, List.not_mem_nil, or_false] at hcode
  rcases hcode with rfl | rfl | rfl <;> exact ⟨_, _, _, rfl, rfl⟩

theorem decode_with_two_operands {op : Word} (A B : Word) (hop : op.toNat ∈ [4, 5, 9, 10, 11, 12, 13]) :
    ∃ i rest, decode [op, A, B] = .ok (i, rest) ∧
      i.roles = [(.dst, Operand.ofWord A), (.src, Operand.ofWord B), (.src, .beyond)] := by
  obtain ⟨code, hcode, rfl⟩ := exists_eq_ofNat hop
  simp only [List.mem_cons, List.not_mem_nil, or_false] at hcode
  rcases hcode with rfl | rfl | rfl | rfl | rfl | rfl | rfl <;> exact ⟨_, _, rfl, rfl⟩

/-! ### The words up to the top -/

section TopWords

variable {m : Memory} {v w x : Word}

theorem fetchWords_at_32767 (hx : memRead m 32767 = .ok x) : fetchWords m 32767 4 = [x] := by
  rw [fetchWords_of_memRead 3 hx, fetchWords_above 3 (Nat.le_refl 32768)]

theorem fetchWords_at_32766 (hw : memRead m 32766 = .ok w) (hx : memRead m 32767 = .ok x) :
    fetchWords m 32766 4 = [w, x] := by
  rw [fetchWords_of_memRead 3 hw, fetchWords_of_memRead 2 hx, fetchWords_above 2 (Nat.le_refl 32768)]

theorem fetchWords_at_32765 (hv : memRead m 32765 = .ok v) (hw : memRead m 32766 = .ok w)
    (hx : memRead m 32767 = .ok x) : fetchWords m 32765 4 = [v, w, x] := by
  rw [fetchWords_of_memRead 3 hv, fetchWords_of_memRead 2 hw, fetchWords_of_memRead 1 hx,
    fetchWords_above 1 (Nat.le_refl 32768)]

end TopWords

/-- Settles O44: with `pc` above the top there is no opcode word; below it the words up to the top decode to an instruction
whose first operand without a word decides. -/
theorem addressesDoNotWrap : Obligations.AddressesDoNotWrap := by
  refine ⟨fun s => step_of_pc_above, ?_, ?_, ?_⟩
  · intro s op hrun hpc hop hle h0 h18 h21
    obtain ⟨i, rest, ρ, qs, hdecode, hroles⟩ := decode_without_operands hle h0 h18 h21
    have hwords : fetchWords s.mem s.pc.toNat 4 = [op] := by rw [hpc]; exact fetchWords_at_32767 hop
    rw [step_of_operand_beyond (ps := []) hrun hwords hdecode hroles (by simp), State.raise, hpc]
  · intro s op A hrun hpc hop hA hrow hhigh
    have hwords : fetchWords s.mem s.pc.toNat 4 = [op, A] := by rw [hpc]; exact fetchWords_at_32766 hop hA
    rcases hrow with ⟨hrow, hlow⟩ | hrow
    · obtain ⟨i, rest, qs, hdecode, hroles⟩ := decode_with_dest_alone A hrow
      rw [step_of_operand_beyond (ps := [_]) hrun hwords hdecode hroles (by simpa using okAs_dst_ofWord hlow hhigh),
        State.raise, hpc]
    · obtain ⟨i, rest, qs, hdecode, hroles⟩ := decode_with_source_alone A hrow
      rw [step_of_operand_beyond (ps := [_]) hrun hwords hdecode hroles (by simpa using okAs_src_ofWord hhigh),
        State.raise, hpc]
  · intro s op A B hrun hpc hop hA hB hrow hlow hhigh hBhigh
    obtain ⟨i, rest, hdecode, hroles⟩ := decode_with_two_operands A B hrow
    have hwords : fetchWords s.mem s.pc.toNat 4 = [op, A, B] := by rw [hpc]; exact fetchWords_at_32765 hop hA hB
    rw [step_of_operand_beyond (ps := [_, _]) hrun hwords hdecode hroles
      (by simpa using ⟨okAs_dst_ofWord hlow hhigh, okAs_src_ofWord hBhigh⟩), State.raise, hpc]

end Sys2Proof.Machine
end

section
/-!
PROOFS. The storages: registers (R109), memory (R51, R52) and the stack (R27).
-/
namespace Sys2Proof.Machine

/-- Settles O1. -/
theorem registerWriteStoresWord : Obligations.RegisterWriteStoresWord :=
  fun s d r v => RegFile.get_set d v s.regs r

/-- Settles O3: on either side of the bound 32767. -/
theorem memoryReadAfterWrite : Obligations.MemoryReadAfterWrite := by
  refine fun m a v hwf => ⟨fun ha => ?_, fun ha => ⟨memWrite_of_ge m v ha, memRead_of_ge m ha⟩⟩
  have ha : a < 32768 := Nat.lt_succ_of_le ha
  refine ⟨Memory.write m a v, memWrite_of_lt m v ha, ?_, fun b hb => ?_⟩
  · rw [memRead_of_lt _ ha, Memory.read_write_self m a v hwf]
  · rw [memRead, memRead, Memory.read_write_ne m v hb]

theorem popMany_succ_of_pop {s t u : State} {v : Word} {vs : List Word} {n : Nat} (hpop : s.pop = .ok (v, t))
    (hmany : popMany n t = .ok (vs, u)) : popMany (n + 1) s = .ok (v :: vs, u) := by
  simp only [popMany, hpop, hmany]

/-- The word pushed last, which stands first in `ws`, is popped first. -/
theorem popMany_foldr_push (s : State) (ws : List Word) :
    popMany ws.length (ws.foldr (fun v t => t.push v) s) = .ok (ws, s) := by
  induction ws with
  | nil => rfl
  | cons w ws ih => exact popMany_succ_of_pop (State.pop_push _ w) ih

theorem popMany_foldl_push (s : State) (vs : List Word) :
    popMany vs.length (vs.foldl State.push s) = .ok (vs.reverse, s) := by
  have h := popMany_foldr_push s vs.reverse
  rw [List.length_reverse, List.foldr_reverse] at h
  exact h

theorem State.pop_of_nil {s : State} (h : s.stack = []) : s.pop = .error .stackUnderflow :=
  State.pop_eq_error.mpr ⟨h, rfl⟩

theorem State.pop_of_append {s : State} {rest : List Word} {v : Word} (h : s.stack = rest ++ [v]) :
    s.pop = .ok (v, { s with stack := rest }) :=
  State.pop_eq_ok.mpr ⟨h, rfl⟩

/-- Settles O5. -/
theorem stackIsLifo : Obligations.StackIsLifo :=
  ⟨popMany_foldl_push, fun _ => State.pop_of_nil⟩

end Sys2Proof.Machine
end

section
/-!
PROOFS. The instructions as chains of checks (R101, R105), and what they do on operands that resolve: data moves (R120, R122), compare
(R125, R126), jumps (R130 to R132) and `mod`, `and`, `or` (R142 to R144).
-/
namespace Sys2Proof.Machine

open Host (Outcome)

/-! ### The meanings as chains of checks -/

section Chains

variable (A B C : Operand) (s : State)

theorem exec_set : exec (.set A B) s =
    orRaise s (dest A) fun d => orRaise s (resolve s B) fun b => .next ((s.setReg d b).advance 3) := rfl

theorem exec_pop : exec (.pop A) s =
    orRaise s (dest A) fun d => orRaise s s.pop fun (v, s') => .next ((s'.setReg d v).advance 2) := rfl

theorem exec_eq : exec (.eq A B C) s =
    orRaise s (dest A) fun d => orRaise s (resolve s B) fun b => orRaise s (resolve s C) fun c =>
      .next ((s.setReg d (eqFlag b c)).advance 4) := rfl

theorem exec_gt : exec (.gt A B C) s =
    orRaise s (dest A) fun d => orRaise s (resolve s B) fun b => orRaise s (resolve s C) fun c =>
      .next ((s.setReg d (gtFlag b c)).advance 4) := rfl

theorem exec_jmp : exec (.jmp A) s = orRaise s (resolve s A) fun a => .next (s.jump a) := rfl

theorem exec_jt : exec (.jt A B) s =
    orRaise s (resolve s A) fun a => orRaise s (resolve s B) fun b =>
      .next (if isNonzero a then s.jump b else s.advance 3) := rfl

theorem exec_jf : exec (.jf A B) s =
    orRaise s (resolve s A) fun a => orRaise s (resolve s B) fun b =>
      .next (if isNonzero a then s.advance 3 else s.jump b) := rfl

theorem exec_mod : exec (.mod A B C) s =
    orRaise s (dest A) fun d => orRaise s (resolve s B) fun b => orRaise s (resolve s C) fun c =>
      orRaise s (modValue b c) fun v => .next ((s.setReg d v).advance 4) := rfl

theorem exec_and : exec (.and A B C) s =
    orRaise s (dest A) fun d => orRaise s (resolve s B) fun b => orRaise s (resolve s C) fun c =>
      .next ((s.setReg d (andValue b c)).advance 4) := rfl

theorem exec_or : exec (.or A B C) s =
    orRaise s (dest A) fun d => orRaise s (resolve s B) fun b => orRaise s (resolve s C) fun c =>
      .next ((s.setReg d (orValue b c)).advance 4) := rfl

theorem exec_rmem : exec (.rmem A B) s =
    orRaise s (dest A) fun d => orRaise s (resolve s B) fun b =>
      orRaise s (memRead s.mem b.toNat) fun v => .next ((s.setReg d v).advance 3) := rfl

theorem exec_wmem : exec (.wmem A B) s =
    orRaise s (resolve s A) fun a => orRaise s (resolve s B) fun b =>
      orRaise s (memWrite s.mem a.toNat b) fun m => .next ({ s with mem := m }.advance 3) := rfl

theorem exec_call : exec (.call A) s =
    orRaise s (resolve s A) fun a => .next ((s.push (s.pc + 2)).jump a) := rfl

theorem exec_ret : exec .ret s = orRaise s s.pop fun (v, s') => .next (s'.jump v) := rfl

theorem exec_out : exec (.out A) s = orRaise s (resolve s A) fun a => .next ((s.emit a).advance 2) := rfl

theorem exec_noop : exec .noop s = .next (s.advance 1) := rfl

end Chains

section Shapes

variable {i : Instr} {A B : Operand} {s : State} {a b : Word}

theorem exec_of_source {k : State → Word → Outcome State Fault Refusal}
    (hexec : ∀ s, exec i s = orRaise s (resolve s A) fun a => k s a) (hA : resolve s A = .ok a) :
    exec i s = k s a := by
  rw [hexec, hA, orRaise_ok]

theorem exec_of_two_sources {k : State → Word → Word → Outcome State Fault Refusal}
    (hexec : ∀ s, exec i s = orRaise s (resolve s A) fun a => orRaise s (resolve s B) fun b => k s a b)
    (hA : resolve s A = .ok a) (hB : resolve s B = .ok b) : exec i s = k s a b := by
  rw [hexec, hA, orRaise_ok, hB, orRaise_ok]

theorem exec_of_dest {k : State → Reg → Outcome State Fault Refusal} {d : Reg}
    (hexec : ∀ s, exec i s = orRaise s (dest A) fun d => k s d) (hA : dest A = .ok d) : exec i s = k s d := by
  rw [hexec, hA, orRaise_ok]

end Shapes

/-! ### `set`, `pop` -/

/-- Settles O9. -/
theorem setCopies : Obligations.SetCopies := by
  refine fun A B => ⟨encode_of_two_operands rfl, raisesOperandErrors _, ?_⟩
  exact fun s d b hA hB => exec_of_dest_source (exec_set A B) hA hB

/-- Settles O11. -/
theorem popTakesTop : Obligations.PopTakesTop := by
  refine fun A => ⟨encode_of_single_operand rfl, raisesOperandErrors _, fun s d hA => ⟨fun hnil => ?_, ?_⟩⟩
  · rw [exec_of_dest (exec_pop A) hA, State.pop_of_nil hnil, orRaise_error, State.raise]
  · intro rest v hstack
    rw [exec_of_dest (exec_pop A) hA, State.pop_of_append hstack, orRaise_ok]
    rfl

/-! ### `eq`, `gt` -/

/-- Settles O12. -/
theorem eqComparesWords : Obligations.EqComparesWords := by
  refine fun A B C => ⟨encode_of_three_operands rfl, raisesOperandErrors _, ?_⟩
  exact fun s d b c hA hB hC => exec_of_dest_two_sources (exec_eq A B C) hA hB hC

/-- Settles O13. -/
theorem gtComparesUnsigned : Obligations.GtComparesUnsigned := by
  refine fun A B C => ⟨encode_of_three_operands rfl, raisesOperandErrors _, ?_⟩
  exact fun s d b c hA hB hC => exec_of_dest_two_sources (exec_gt A B C) hA hB hC

/-! ### `jmp`, `jt`, `jf` -/

theorem ite_isNonzero {α : Type} (a : Word) (x y : α) : (if isNonzero a then x else y) = if a = 0 then y else x := by
  simp only [isNonzero, decide_eq_true_eq, ne_eq, ite_not]

/-- Settles O14. -/
theorem jmpSetsPc : Obligations.JmpSetsPc := by
  refine fun A => ⟨encode_of_single_operand rfl, raisesOperandErrors _, ?_⟩
  exact fun s a hA => exec_of_source (exec_jmp A) hA

/-- Settles O15: both operands are resolved before the condition is looked at. -/
theorem jtJumpsOnNonzero : Obligations.JtJumpsOnNonzero := by
  refine fun A B => ⟨encode_of_two_operands rfl, raisesOperandErrors _, fun s a b hA hB => ?_⟩
  rw [exec_of_two_sources (exec_jt A B) hA hB, ite_isNonzero]
  split <;> rfl

/-- Settles O16: both operands are resolved before the condition is looked at. -/
theorem jfJumpsOnZero : Obligations.JfJumpsOnZero := by
  refine fun A B => ⟨encode_of_two_operands rfl, raisesOperandErrors _, fun s a b hA hB => ?_⟩
  rw [exec_of_two_sources (exec_jf A B) hA hB, ite_isNonzero]
  split <;> rfl

/-! ### `mod`, `and`, `or` -/

theorem modValue_of_zero (b : Word) : modValue b 0 = .error .divisionByZero :=
  modValue_eq_error.mpr ⟨rfl, rfl⟩

/-- The remainder fits 16 bits, so narrowing it loses nothing. -/
theorem exists_modValue_of_ne_zero (b : Word) {c : Word} (hc : c ≠ 0) :
    ∃ v, modValue b c = .ok v ∧ v.toNat = b.toNat % c.toNat := by
  have hok : modValue b c = .ok (BitVec.ofNat 16 (b.toNat % c.toNat)) := if_neg hc
  exact ⟨_, hok, (modValue_eq_ok.mp hok).2⟩

section Mod

variable {A B C : Operand} {s : State} {d : Reg} {b c v : Word}

theorem exec_mod_of_modValue (hA : dest A = .ok d) (hB : resolve s B = .ok b) (hC : resolve s C = .ok c)
    (hv : modValue b c = .ok v) : exec (.mod A B C) s = .next ((s.setReg d v).advance 4) := by
  rw [exec_of_dest_two_sources (exec_mod A B C) hA hB hC, hv, orRaise_ok]

end Mod

/-- Settles O19. -/
theorem modRemainder : Obligations.ModRemainder := by
  refine fun A B C => ⟨encode_of_three_operands rfl, raisesOperandErrors _, ?_⟩
  refine fun s d b c hA hB hC => ⟨?_, fun hc => ?_⟩
  · rintro rfl
    rw [exec_of_dest_two_sources (exec_mod A B C) hA hB hC, modValue_of_zero, orRaise_error, State.raise]
  · obtain ⟨v, hok, hv⟩ := exists_modValue_of_ne_zero b hc
    refine ⟨v, ?_, ?_, exec_mod_of_modValue hA hB hC hok⟩
    · rw [hv]
      exact Nat.mod_lt _ (BitVec.toNat_pos_of_ne_zero hc)
    · rw [hv, Nat.div_add_mod]

/-- Settles O20. -/
theorem andBitwise : Obligations.AndBitwise := by
  refine fun A B C => ⟨encode_of_three_operands rfl, raisesOperandErrors _, fun s d b c hA hB hC => ?_⟩
  exact ⟨andValue b c, fun i _ => BitVec.getLsbD_and, exec_of_dest_two_sources (exec_and A B C) hA hB hC⟩

/-- Settles O21. -/
theorem orBitwise : Obligations.OrBitwise := by
  refine fun A B C => ⟨encode_of_three_operands rfl, raisesOperandErrors _, fun s d b c hA hB hC => ?_⟩
  exact ⟨orValue b c, fun i _ => BitVec.getLsbD_or, exec_of_dest_two_sources (exec_or A B C) hA hB hC⟩

end Sys2Proof.Machine
end

section
/-!
PROOFS. Memory access (R62, R150, R151), and `call` and `ret` (R155 to R157).
-/
namespace Sys2Proof.Machine

/-! ### `rmem`, `wmem` -/

section MemOps

variable {A B : Operand} {s : State} {d : Reg} {a b : Word}

theorem exec_rmem_of_le (hA : dest A = .ok d) (hB : resolve s B = .ok b) (hb : b.toNat ≤ 32767) :
    exec (.rmem A B) s = .next ((s.setReg d (Memory.read s.mem b.toNat)).advance 3) := by
  rw [exec_of_dest_source (exec_rmem A B) hA hB, memRead_of_lt s.mem (Nat.lt_succ_of_le hb), orRaise_ok]

theorem exec_wmem_of_le (hA : resolve s A = .ok a) (hB : resolve s B = .ok b) (ha : a.toNat ≤ 32767) :
    exec (.wmem A B) s = .next ({ s with mem := Memory.write s.mem a.toNat b }.advance 3) := by
  rw [exec_of_two_sources (exec_wmem A B) hA hB, memWrite_of_lt s.mem b (Nat.lt_succ_of_le ha), orRaise_ok]

end MemOps

/-- Settles O23. -/
theorem rmemLoads : Obligations.RmemLoads := by
  refine fun A B => ⟨encode_of_two_operands rfl, raisesOperandErrors _, fun s d b hA hB => ?_⟩
  refine ⟨exec_rmem_of_le hA hB, fun hb => ?_⟩
  rw [exec_of_dest_source (exec_rmem A B) hA hB, memRead_of_ge s.mem hb, orRaise_error, State.raise]

/-- Settles O24. -/
theorem wmemStores : Obligations.WmemStores := by
  refine fun A B => ⟨encode_of_two_operands rfl, raisesOperandErrors _, fun s a b hwf hA hB => ⟨fun ha => ?_, ?_⟩⟩
  · refine ⟨Memory.write s.mem a.toNat b, fun x => ?_, exec_wmem_of_le hA hB ha⟩
    split
    · next hx => rw [hx, Memory.read_write_self s.mem a.toNat b hwf]
    · next hx => rw [Memory.read_write_ne s.mem b hx]
  · intro ha
    rw [exec_of_two_sources (exec_wmem A B) hA hB, memWrite_of_ge s.mem b ha, orRaise_error, State.raise]

/-- Settles O4: the fetch reads the memory that the store has written. -/
theorem storedWordIsFetched : Obligations.StoredWordIsFetched := by
  intro s A B a b hwf hA hB ha
  refine ⟨_, exec_wmem_of_le hA hB ha, ?_⟩
  rw [State.advance_mem, fetchWords_succ 3 (Nat.lt_succ_of_le ha), List.head?_cons,
    Memory.read_write_self s.mem a.toNat b hwf]

/-! ### `call`, `ret` -/

theorem exec_ret_of_append {s : State} {rest : List Word} {v : Word} (h : s.stack = rest ++ [v]) :
    exec .ret s = .next { s with stack := rest, pc := v } := by
  rw [exec_ret, State.pop_of_append h, orRaise_ok]
  rfl

/-- Settles O25. -/
theorem callPushesReturn : Obligations.CallPushesReturn := by
  refine fun A => ⟨encode_of_single_operand rfl, raisesOperandErrors _, ?_⟩
  exact fun s a hA => exec_of_source (exec_call A) hA

/-- Settles O26. -/
theorem retPopsPc : Obligations.RetPopsPc := by
  refine ⟨rfl, fun s => ⟨fun hnil => ?_, fun rest v => exec_ret_of_append⟩⟩
  rw [exec_ret, State.pop_of_nil hnil, orRaise_error, State.raise]

/-- Settles O27: the word popped is the one the `call` pushed. -/
theorem retAfterCall : Obligations.RetAfterCall :=
  fun s A _ hA => ⟨_, exec_of_source (exec_call A) hA, rfl, exec_ret_of_append (rest := s.stack) rfl⟩

end Sys2Proof.Machine
end

section
/-!
PROOFS. The ports (R160 to R166) and `noop` (R171).
-/
namespace Sys2Proof.Machine

/-! ### `out`, `in` -/

/-- The character seen is the low byte of the word emitted. -/
theorem State.outChars_emit (s : State) (v : Word) : (s.emit v).outChars = s.outChars ++ [v.setWidth 8] := by
  rw [State.outChars, State.emit_out, List.map_append]
  rfl

/-- Settles O28. -/
theorem outEmits : Obligations.OutEmits := by
  refine fun A => ⟨encode_of_single_operand rfl, raisesOperandErrors _, fun s a hA => ?_⟩
  refine ⟨_, exec_of_source (exec_out A) hA, rfl, a.setWidth 8, BitVec.toNat_setWidth 8 a, ?_⟩
  exact State.outChars_emit s a

section In

variable {A : Operand} {s : State} {d : Reg}

theorem exec_input_of_code {c : Byte} {rest : List Byte} (hA : dest A = .ok d) (hinp : s.inp = c :: rest) :
    exec (.input A) s = .next { s with regs := s.regs.set d (c.setWidth 16), inp := rest, pc := s.pc + 2 } := by
  rw [exec_of_dest (exec_input A) hA, State.takeInput_code hinp, orRaise_ok]
  rfl

theorem exec_input_of_ended (hA : dest A = .ok d) (hinp : s.inp = []) (hend : s.inpEnd = true) :
    exec (.input A) s = .next (s.raise .inputExhausted) := by
  rw [exec_of_dest (exec_input A) hA, State.takeInput_ended hinp hend, orRaise_error]

theorem exec_input_of_hold (hA : dest A = .ok d) (hinp : s.inp = []) (hend : s.inpEnd = false) :
    exec (.input A) s = .fault .holding := by
  rw [exec_of_dest (exec_input A) hA, State.takeInput_hold hinp hend, orRaise_ok]

theorem toNat_setWidth_byte (c : Byte) : (c.setWidth 16 : Word).toNat = c.toNat :=
  BitVec.toNat_setWidth_of_le (by decide)

end In

/-- Settles O29, by the three answers of the input source. -/
theorem inReadsCode : Obligations.InReadsCode := by
  refine fun A => ⟨encode_of_single_operand rfl, raisesOperandErrors _, fun s d hA => ?_⟩
  exact ⟨fun c rest hinp => ⟨_, toNat_setWidth_byte c, exec_input_of_code hA hinp⟩, exec_input_of_ended hA,
    exec_input_of_hold hA⟩

/-! ### `noop` -/

theorem decode_noop (ws : List Word) : decode (21 :: ws) = .ok (.noop, ws) := rfl

theorem step_of_memRead_noop {s : State} (hrun : s.run = .running) (h : memRead s.mem s.pc.toNat = .ok 21) :
    step s = .next (s.advance 1) := by
  have hfetch : fetch s = .ok .noop := by
    apply fetch_of_decode
    rw [fetchWords_of_memRead 3 h, decode_noop]
  rw [step_of_fetch hrun hfetch, exec_noop]

/-- Settles O31: past the last word `pc` is 32768, from where nothing is fetched. -/
theorem noopAdvances : Obligations.NoopAdvances := by
  refine ⟨rfl, fun s => ⟨exec_noop s, fun hrun hpc hmem => ?_⟩⟩
  have hmem' : memRead s.mem s.pc.toNat = .ok 21 := by rw [hpc]; exact hmem
  have hnext : s.advance 1 = { s with pc := 32768 } := by rw [State.advance, hpc]; rfl
  refine ⟨_, step_of_memRead_noop hrun hmem', hnext, ?_⟩
  have habove : 32767 < (32768 : Word).toNat := by decide
  rw [hnext]
  exact step_of_pc_above hrun habove

end Sys2Proof.Machine
end

section
/-!
PROOFS. Sources are read before the destination is written (R106), and the ranges of the results (R149).
-/
namespace Sys2Proof.Machine

/-- Settles O32: the operands resolve in the state before the write. -/
theorem readsBeforeWrites : Obligations.ReadsBeforeWrites := by
  refine fun s r => ⟨?_, fun hr => exec_rmem_of_le rfl rfl hr, ?_⟩
  · rw [exec_of_dest_two_sources (exec_add _ _ _) rfl rfl rfl, addValue, ← Nat.two_mul]
    rfl
  · rw [exec_of_dest_source (exec_set _ _) rfl rfl, State.setReg, RegFile.set_get_self]
    rfl

/-- An instruction that only sets `d` and advances leaves in `d` what it wrote. -/
theorem exists_next_of_setReg {s : State} {i : Instr} {d : Reg} {v : Word} {n : Nat}
    (h : exec i s = .next ((s.setReg d v).advance n)) (P : Word → Prop) (hv : P v) :
    ∃ t, exec i s = .next t ∧ P (t.regs.get d) := by
  refine ⟨_, h, ?_⟩
  rw [State.advance_regs, State.setReg_regs, RegFile.get_set, if_pos rfl]
  exact hv

/-- Settles O33, by the range of each value. -/
theorem resultRanges : Obligations.ResultRanges := by
  intro s d B C b c hB hC
  refine ⟨?_, ?_, fun hc => ?_, ?_, ?_⟩
  · rintro i (rfl | rfl | rfl)
    · exact exists_next_of_setReg (exec_of_dest_two_sources (exec_add _ B C) rfl hB hC) Narrow (narrow_addValue b c)
    · exact exists_next_of_setReg (exec_of_dest_two_sources (exec_mult _ B C) rfl hB hC) Narrow (narrow_multValue b c)
    · exact exists_next_of_setReg (exec_of_dest_source (exec_not _ B) rfl hB) Narrow (narrow_notValue b)
  · rintro i (rfl | rfl)
    · exact exists_next_of_setReg (exec_of_dest_two_sources (exec_eq _ B C) rfl hB hC) (fun v => v = 0 ∨ v = 1)
        (eqFlag_eq_zero_or_one b c)
    · exact exists_next_of_setReg (exec_of_dest_two_sources (exec_gt _ B C) rfl hB hC) (fun v => v = 0 ∨ v = 1)
        (gtFlag_eq_zero_or_one b c)
  · obtain ⟨v, hok, hv⟩ := exists_modValue_of_ne_zero b hc
    exact exists_next_of_setReg (exec_mod_of_modValue rfl hB hC hok) (·.toNat < c.toNat)
      (hv ▸ Nat.mod_lt _ (BitVec.toNat_pos_of_ne_zero hc))
  · exact exists_next_of_setReg (exec_of_dest_two_sources (exec_and _ B C) rfl hB hC)
      (fun v => v.toNat ≤ b.toNat ∧ v.toNat ≤ c.toNat) ⟨andValue_le_left b c, andValue_le_right b c⟩
  · exact exists_next_of_setReg (exec_of_dest_two_sources (exec_or _ B C) rfl hB hC)
      (fun v => b.toNat ≤ 32767 → c.toNat ≤ 32767 → v.toNat ≤ 32767) narrow_orValue

end Sys2Proof.Machine
end

section
/-!
PROOFS. Isolation (R28, R36, R162, R164): what an instruction cannot look at. The three kinds of data are put around a state at
once, and every meaning commutes with that.
-/
namespace Sys2Proof.Machine

open Host (Outcome)

/-- Data that no instruction reaches directly: words below the stack, codes emitted before, codes behind those available,
and another signal of end-of-input if there is to be one. -/
structure Surroundings where
  below : List Word
  history : List Word
  more : List Byte
  ended : Option Bool

/-- A state with its surroundings. -/
def State.within (c : Surroundings) (s : State) : State :=
  { s with
    stack := c.below ++ s.stack, out := c.history ++ s.out, inp := s.inp ++ c.more, inpEnd := c.ended.getD s.inpEnd }

/-- The state hides its surroundings: something stands above the words below, and before the codes behind. -/
structure Surroundings.HiddenBy (c : Surroundings) (s : State) : Prop where
  stack : c.below = [] ∨ s.stack ≠ []
  input : (c.more = [] ∧ c.ended = none) ∨ s.inp ≠ []

section Within

variable {c : Surroundings} {s : State}

theorem resolve_within (A : Operand) : resolve (s.within c) A = resolve s A :=
  resolve_congr rfl A

theorem State.push_within (v : Word) : (s.within c).push v = (s.push v).within c := by
  simp only [State.push, State.within, List.append_assoc]

theorem State.emit_within (v : Word) : (s.within c).emit v = (s.emit v).within c := by
  simp only [State.emit, State.within, List.append_assoc]

/-- The top of the stack is above the words below, and so is the underflow of an empty stack with none below. -/
theorem State.pop_within (h : c.below = [] ∨ s.stack ≠ []) :
    (s.within c).pop = s.pop.map fun p => (p.1, p.2.within c) := by
  cases hpop : s.pop with
  | error e =>
    obtain ⟨hnil, rfl⟩ := State.pop_eq_error.mp hpop
    have hbelow : c.below = [] := h.resolve_right (not_not_intro hnil)
    have hwithin : c.below ++ s.stack = [] := by rw [hbelow, hnil]; rfl
    rw [State.pop_of_nil (s := s.within c) hwithin]
    rfl
  | ok p =>
    obtain ⟨v, u⟩ := p
    obtain ⟨rest, hstack, rfl⟩ := State.exists_of_pop_eq_ok hpop
    have hwithin : c.below ++ s.stack = (c.below ++ rest) ++ [v] := by rw [hstack, List.append_assoc]
    rw [State.pop_of_append (s := s.within c) hwithin]
    rfl

/-- The first code is before those behind, and with none behind the input source's other answers are the same. -/
theorem State.takeInput_within (h : (c.more = [] ∧ c.ended = none) ∨ s.inp ≠ []) :
    (s.within c).takeInput = s.takeInput.map (Option.map fun p => (p.1, p.2.within c)) := by
  cases hinp : s.inp with
  | cons b rest =>
    have hwithin : s.inp ++ c.more = b :: (rest ++ c.more) := by rw [hinp, List.cons_append]
    rw [State.takeInput_code hinp, State.takeInput_code (s := s.within c) hwithin]
    rfl
  | nil =>
    obtain ⟨hmore, hended⟩ := h.resolve_right (not_not_intro hinp)
    have hwithin : (s.within c).inp = [] := by rw [State.within, hinp, hmore]; rfl
    have hflag : (s.within c).inpEnd = s.inpEnd := by rw [State.within, hended]; rfl
    cases hend : s.inpEnd with
    | false => rw [State.takeInput_hold hinp hend, State.takeInput_hold hwithin (hflag.trans hend)]; rfl
    | true => rw [State.takeInput_ended hinp hend, State.takeInput_ended hwithin (hflag.trans hend)]; rfl

/-- A check whose value carries the surroundings along, and then a continuation that does. -/
theorem orRaise_within_map {α : Type} {x x' : Except ErrorKind α} {f : α → α} {k k' : α → Outcome State Fault Refusal}
    (hx : x' = x.map f) (hk : ∀ v, k' (f v) = mapNext (State.within c) (k v)) :
    orRaise (s.within c) x' k' = mapNext (State.within c) (orRaise s x k) := by
  cases x with
  | ok v => rw [hx]; exact hk v
  | error e => rw [hx]; rfl

/-- A check that does not look at the surroundings. -/
theorem orRaise_within {α : Type} {x x' : Except ErrorKind α} {k k' : α → Outcome State Fault Refusal} (hx : x' = x)
    (hk : ∀ v, k' v = mapNext (State.within c) (k v)) :
    orRaise (s.within c) x' k' = mapNext (State.within c) (orRaise s x k) :=
  orRaise_within_map (f := id) (by rw [hx]; cases x <;> rfl) hk

/-- The effect of an instruction is the same within surroundings, which stay as they are. -/
theorem exec_within (h : c.HiddenBy s) (i : Instr) : exec i (s.within c) = mapNext (State.within c) (exec i s) := by
  cases i with
  | halt | noop => rfl
  | set A B | not A B => exact orRaise_within rfl fun _ => orRaise_within (resolve_within B) fun _ => rfl
  | eq A B C | gt A B C | add A B C | mult A B C | and A B C | or A B C =>
    exact orRaise_within rfl fun _ => orRaise_within (resolve_within B) fun _ =>
      orRaise_within (resolve_within C) fun _ => rfl
  | mod A B C =>
    exact orRaise_within rfl fun _ => orRaise_within (resolve_within B) fun _ =>
      orRaise_within (resolve_within C) fun _ => orRaise_within rfl fun _ => rfl
  | jmp A => exact orRaise_within (resolve_within A) fun _ => rfl
  | jt A B | jf A B =>
    exact orRaise_within (resolve_within A) fun _ => orRaise_within (resolve_within B) fun _ => by split <;> rfl
  | rmem A B =>
    exact orRaise_within rfl fun _ => orRaise_within (resolve_within B) fun _ => orRaise_within rfl fun _ => rfl
  | wmem A B =>
    exact orRaise_within (resolve_within A) fun _ => orRaise_within (resolve_within B) fun _ =>
      orRaise_within rfl fun _ => rfl
  | push A => exact orRaise_within (resolve_within A) fun v => by rw [State.push_within]; rfl
  | call A => exact orRaise_within (resolve_within A) fun v => by rw [State.push_within]; rfl
  | out A => exact orRaise_within (resolve_within A) fun v => by rw [State.emit_within]; rfl
  | pop A => exact orRaise_within rfl fun _ => orRaise_within_map (State.pop_within h.stack) fun _ => rfl
  | ret => exact orRaise_within_map (State.pop_within h.stack) fun _ => rfl
  | input A =>
    exact orRaise_within rfl fun _ => orRaise_within_map (State.takeInput_within h.input) fun answer => by
      cases answer <;> rfl

theorem step_within (h : c.HiddenBy s) : step (s.within c) = mapNext (State.within c) (step s) := by
  by_cases hrun : s.run = .running
  · rw [step_running hrun, step_running (s := s.within c) hrun]
    exact orRaise_within (fetch_congr rfl rfl) (exec_within h)
  · rw [step_of_not_running hrun, step_of_not_running (s := s.within c) hrun]
    rfl

end Within

/-- Settles O51: a history emitted before is hidden by every state. -/
theorem outputIsNotRead : Obligations.OutputIsNotRead := by
  intro s history
  have hwithin : State.within ⟨[], history, [], none⟩ = fun t => { t with out := history ++ t.out } :=
    funext fun t => by simp only [State.within, List.nil_append, List.append_nil, Option.getD_none]
  have hstep := step_within (c := ⟨[], history, [], none⟩) (s := s) ⟨.inl rfl, .inl ⟨rfl, rfl⟩⟩
  rw [hwithin] at hstep
  exact hstep

/-- Settles O52: a code available hides those behind it. -/
theorem inputIsNotReadAhead : Obligations.InputIsNotReadAhead :=
  fun s more ended hinp => step_within (c := ⟨[], [], more, some ended⟩) (s := s) ⟨.inl rfl, .inr hinp⟩

/-- Settles O53: an element of the stack hides the words below it. -/
theorem stackBelowIsNotRead : Obligations.StackBelowIsNotRead := by
  intro s below hstack
  have hwithin : State.within ⟨below, [], [], none⟩ = fun t => { t with stack := below ++ t.stack } :=
    funext fun t => by simp only [State.within, List.nil_append, List.append_nil, Option.getD_none]
  have hstep := step_within (c := ⟨below, [], [], none⟩) (s := s) ⟨.inr hstack, .inl ⟨rfl, rfl⟩⟩
  rw [hwithin] at hstep
  exact hstep

end Sys2Proof.Machine
end

section
/-!
PROOFS. The environment: the start of a run (R37, R210, R211), the status record (R30, R180), and the hold of `in` with the two
moves that lift it (R35, R164 to R166).
-/
namespace Sys2Proof.Machine

/-! ### The start of a run -/

section Reset

variable {image : List Word} (codes : List Byte) (ended : Bool) {a : Nat}

theorem memRead_resetWith_of_lt_length (hlen : image.length ≤ 32768) (ha : a < image.length) :
    memRead (State.resetWith image codes ended).mem a = .ok image[a] := by
  have hread := read_placeWords image (a := 0) State.reset_mem_wf ha (by omega)
  rw [Nat.zero_add] at hread
  exact memRead_eq_ok.mpr ⟨by omega, hread⟩

theorem memRead_resetWith_of_length_le (ha : image.length ≤ a) (hle : a ≤ 32767) :
    memRead (State.resetWith image codes ended).mem a = .ok 0 :=
  memRead_eq_ok.mpr ⟨by omega, read_placeWords_after image (a := 0) (by omega)⟩

end Reset

/-- Settles O58: the image is placed word by word, and the rest is as in `State.reset` or as supplied. -/
theorem resetState : Obligations.ResetState := by
  refine ⟨fun image codes ended hlen => ?_, rfl⟩
  refine ⟨_, rfl, ?_, ?_, State.reset_get, rfl, rfl, rfl, rfl, rfl, rfl, rfl, rfl, rfl⟩
  · exact fun a ha => memRead_resetWith_of_lt_length codes ended hlen ha
  · exact fun a ha hle => memRead_resetWith_of_length_le codes ended ha hle

/-! ### The status record -/

/-- Bit vectors laid side by side, as numbers. -/
theorem toNat_append_eq_add {m n : Nat} (x : BitVec m) (y : BitVec n) :
    (x ++ y).toNat = x.toNat * 2 ^ n + y.toNat := by
  rw [BitVec.toNat_append, ← Nat.shiftLeft_add_eq_or_of_lt y.isLt, Nat.shiftLeft_eq]

theorem State.status_toNat (s : State) :
    s.status.toNat = s.statusFpc.toNat * 32 + s.statusKind.toNat * 4 + s.statusState.toNat := by
  have happend : s.status.toNat = (s.statusFpc ++ s.statusKind ++ s.statusState).toNat := rfl
  rw [happend, toNat_append_eq_add, toNat_append_eq_add]
  omega

/-- The seven codes fit the three bits of their field. -/
theorem toNat_ofNat_code (k : ErrorKind) : (BitVec.ofNat 3 k.code).toNat = k.code := by
  cases k <;> rfl

section Status

variable {s : State}

theorem State.status_of_running (h : s.run = .running) : s.status = 0 := by
  apply BitVec.eq_of_toNat_eq
  simp only [State.status_toNat, State.statusFpc, State.statusKind, State.statusState, h]
  rfl

theorem State.status_of_haltedNormal (h : s.run = .haltedNormal) : s.status.toNat = 1 := by
  simp only [State.status_toNat, State.statusFpc, State.statusKind, State.statusState, h]
  rfl

theorem State.status_of_haltedError {k : ErrorKind} {fpc : Word} (h : s.run = .haltedError k fpc) :
    s.status.toNat = fpc.toNat * 32 + k.code * 4 + 2 := by
  simp only [State.status_toNat, State.statusFpc, State.statusKind, State.statusState, h, toNat_ofNat_code]
  rfl

end Status

/-- Settles O59, by the three kinds of run state. -/
theorem statusRecordFields : Obligations.StatusRecordFields :=
  ⟨fun _ => ⟨State.status_of_running, State.status_of_haltedNormal, fun _ _ => State.status_of_haltedError⟩,
    rfl, rfl, rfl, rfl, rfl, rfl, rfl⟩

/-! ### The hold -/

section Hold

variable {s : State}

theorem State.takeInput_eq_none (h : s.takeInput = .ok none) : s.inp = [] ∧ s.inpEnd = false := by
  unfold State.takeInput at h
  split at h
  · cases h
  · next hinp hend => exact ⟨hinp, hend⟩
  · cases h

theorem State.supplyCode_of_open (c : Byte) (h : s.inpEnd = false) :
    s.supplyCode c = some { s with inp := s.inp ++ [c] } := by
  rw [State.supplyCode, h]; rfl

theorem State.signalEnd_of_open (h : s.inpEnd = false) : s.signalEnd = some { s with inpEnd := true } := by
  rw [State.signalEnd, h]; rfl

theorem State.supplyCode_of_ended (c : Byte) (h : s.inpEnd = true) : s.supplyCode c = none := by
  rw [State.supplyCode, h]; rfl

theorem State.signalEnd_of_ended (h : s.inpEnd = true) : s.signalEnd = none := by
  rw [State.signalEnd, h]; rfl

/-- Neither move of the environment reaches memory or `pc`, so the same `in` is fetched after it. -/
theorem step_of_fetch_of_input (hrun : s.run = .running) {i : Instr} (hfetch : fetch s = .ok i) (codes : List Byte)
    (ended : Bool) :
    step { s with inp := codes, inpEnd := ended } = exec i { s with inp := codes, inpEnd := ended } :=
  step_of_fetch hrun ((fetch_congr rfl rfl).trans hfetch)

end Hold

/-- Settles O60: the same `in`, asked again, meets the other two answers of the input source. -/
theorem holdUntilSupplied : Obligations.HoldUntilSupplied := by
  refine ⟨fun s hhold => ?_, fun s c => ⟨fun h => ?_, fun h => ?_⟩⟩
  · obtain ⟨hrun, d, hfetch, hin⟩ := holding_iff.mp hhold
    obtain ⟨hinp, hend⟩ := State.takeInput_eq_none hin
    refine ⟨step_of_holding hhold, hrun, fun c => ?_, ?_⟩
    · have hcode : s.inp ++ [c] = c :: s.inp := by rw [hinp]; rfl
      refine ⟨_, _, d, State.supplyCode_of_open c hend, ?_, hfetch, rfl⟩
      rw [step_of_fetch_of_input hrun hfetch, exec_input_of_code (dest_reg d) hcode]
    · refine ⟨_, State.signalEnd_of_open hend, ?_⟩
      rw [step_of_fetch_of_input hrun hfetch]
      exact exec_input_of_ended (dest_reg d) hinp rfl
  · exact ⟨State.supplyCode_of_open c h, State.signalEnd_of_open h⟩
  · exact ⟨State.supplyCode_of_ended c h, State.signalEnd_of_ended h⟩

end Sys2Proof.Machine
end
